-- ==== Sys2Proof/Word.lean ====
section
/-! DEFINITION. The bit-vector types of the frame word decoder (00_scope.md R6, R7; 10_state.md R9). -/

namespace Sys2Proof

/-- A byte of the stream as it arrives on the wire (20_memory.md R28). -/
abbrev Byte := BitVec 8

/-- A Raw Frame Word: "one 16-bit unsigned value read from the wire" (30_encoding.md R39). -/
abbrev Word16 := BitVec 16

/-- The sample code `raw14`, an unsigned integer in [0, 16383] (00_scope.md R6, 30_encoding.md R44). -/
abbrev Code14 := BitVec 14

/-- A binary32 bit pattern (41_numerics.md R63). -/
abbrev F32 := BitVec 32

/-- A channel count register value, 6 bits, legal values 0 to 32 (10_state.md R10). -/
abbrev Count := BitVec 6

/-- A word index within its row, 5 bits (10_state.md R13). -/
abbrev Index := BitVec 5

/-- A register number of READ_REG, 0 to 63 (10_state.md R21). -/
abbrev RegNumber := BitVec 6

end Sys2Proof
end

