-- ==== Sys2Proof/Config.lean ====
section
/-! DEFINITION. The fixed parameters of the decoder (00_scope.md R8, 40_frame_words.md R51, 41_numerics.md R67)
and its one free value, the NaN draw (41_numerics.md R71). -/

namespace Sys2Proof.Config

/-- `MAX_CHANNELS` (00_scope.md R5). -/
def maxChannels : Nat := 32

/-- `SYNC_MASK` (40_frame_words.md R51). -/
def syncMask : Word16 := 0x0101#16

/-- `SYNC_FIRST` (40_frame_words.md R51). -/
def syncFirst : Word16 := 0x0100#16

/-- `SYNC_NEXT` (40_frame_words.md R51). -/
def syncNext : Word16 := 0x0101#16

/-- The mid-scale divisor `8192.0` as a bit pattern (41_numerics.md R67). -/
def f8192 : F32 := 0x46000000#32

/-- The offset `1.0` as a bit pattern (41_numerics.md R67). -/
def fOne : F32 := 0x3F800000#32

/-- `NAN_DRAW` (00_scope.md R8, 41_numerics.md R71, 92_eei_decisions.md D7): the sign (bit 22) and the low 22
fraction bits (bits 21:0) of the n-th NaN result. A FREE VALUE (log 5): nothing constrains it, so a statement
that goes through it holds for every sign and payload. -/
opaque nanDraw : Nat → BitVec 23

end Sys2Proof.Config
end

