-- ==== Sys2Proof/Syntax.lean ====
section
/-! DEFINITION. The instructions: the four word kinds of 30_encoding.md R42, one constructor per row of
spec/opcode_table.json. -/

namespace Sys2Proof

/-- A word of the stream, read as an instruction: its kind is given by the sync bits, its operand is the 14-bit
sample code. The two always-illegal kinds carry the code too: their meaning ignores it as a sample
(30_encoding.md R42 "(ignored)"), but the fault they raise records the whole word (60_exceptions.md R91). -/
inductive Instr where
  /-- `FIRST raw14`, the first word of a row (40_frame_words.md R56). -/
  | first (raw14 : Code14)
  /-- `NEXT raw14`, any later word of a row (40_frame_words.md R57). -/
  | next (raw14 : Code14)
  /-- `BAD00 raw14`, both sync bits clear (40_frame_words.md R58). -/
  | bad00 (raw14 : Code14)
  /-- `BAD01 raw14`, bit 8 clear and bit 0 set (40_frame_words.md R59). -/
  | bad01 (raw14 : Code14)
  deriving DecidableEq, Repr

/-- The operand of a word of any kind (30_encoding.md R44: "`raw14` does not depend on `S1` or `S0`"). -/
def Instr.raw14 : Instr → Code14
  | .first r => r
  | .next r => r
  | .bad00 r => r
  | .bad01 r => r

/-- The sync pair (`S1`, `S0`) of a word's kind, bit 8 first (30_encoding.md R41). -/
def Instr.syncPair : Instr → Bool × Bool
  | .first _ => (true, false)
  | .next _ => (true, true)
  | .bad00 _ => (false, false)
  | .bad01 _ => (false, true)

end Sys2Proof
end

