-- ==== Sys2Proof/Machine/State.lean ====
section
/-! DEFINITION. The state of the decoder (10_state.md R9), its reset (70_reset_and_hazards.md R105), the host's side
of the interface (10_state.md R24), and the reasons a step can stop. -/

namespace Sys2Proof.Machine

/-- `STATE` (10_state.md R14). -/
inductive Phase where
  /-- Reset done, no configuration yet. -/
  | unconf
  /-- Configured, decoding. -/
  | run
  /-- A `SyncBitViolation` has been raised. -/
  | faultSync
  /-- A `ConfigurationOutOfRange` has been raised. -/
  | faultCfg
  deriving DecidableEq, Repr

/-- A host operation (10_state.md R24). They have no bit encoding (30_encoding.md R49). -/
inductive HostOp where
  /-- `RESET` (42_row_and_host_ops.md R81). -/
  | reset
  /-- `CONFIGURE(n, fs, ff)`, `n` 8 bits unsigned (42_row_and_host_ops.md R82). -/
  | configure (n : BitVec 8) (fs ff : F32)
  /-- `PUSH(w)`: the next word of the stream (42_row_and_host_ops.md R84). -/
  | push (w : Word16)
  /-- `TAKE_ROW` (42_row_and_host_ops.md R86). -/
  | takeRow
  /-- `READ_REG(r)` (42_row_and_host_ops.md R87). -/
  | readReg (r : RegNumber)
  deriving DecidableEq, Repr

/-- The result of an operation that has one. -/
inductive Reply where
  /-- What a `TAKE_ROW` returned: the row's values in word order (42_row_and_host_ops.md R86). -/
  | row (values : List F32)
  /-- What a `READ_REG` of a register returned (42_row_and_host_ops.md R87). -/
  | register (r : RegNumber) (value : BitVec 32)
  deriving DecidableEq, Repr

/-- `OUT[0..31]` (10_state.md R18); `none` is NOVAL. -/
abbrev RowBuffer := Vector (Option F32) 32

/-- All entries NOVAL. -/
def emptyRow : RowBuffer := Vector.replicate 32 none

/-- The nine items of 10_state.md R9, then the model's own three. `none` is the spec's own NOVAL, "holds no value"
(10_state.md R19; log 2). -/
structure State where
  /-- `STATE` (R14). -/
  phase : Phase
  /-- `CHANNEL_COUNT` (R10). -/
  channelCount : Option Count
  /-- `FULL_SCALE` (R11). -/
  fullScale : Option F32
  /-- `FUDGE` (R12). -/
  fudge : Option F32
  /-- `IDX` (R13). -/
  idx : Index
  /-- `ROW_VALID` (R15). -/
  rowValid : Bool
  /-- `ERR_INDEX` (R16). -/
  errIndex : Option Index
  /-- `ERR_WORD` (R17). -/
  errWord : Option Word16
  /-- `OUT[0..31]` (R18). -/
  out : RowBuffer
  /-- The model's own (log 1): the operations the host will issue, the next one first. The words of the input
  stream (20_memory.md R26) stand in it as `push` operations. -/
  pending : List HostOp
  /-- The model's own (log 1): the results the host has received, oldest first. -/
  replies : List Reply
  /-- The model's own (log 5): how many NaN draws have been taken. -/
  draws : Nat
  deriving DecidableEq, Repr

/-- The machine right after reset: the table of 70_reset_and_hazards.md R105, with nothing from the host yet. -/
def State.reset : State where
  phase := .unconf
  channelCount := none
  fullScale := none
  fudge := none
  idx := 0
  rowValid := false
  errIndex := none
  errWord := none
  out := emptyRow
  pending := []
  replies := []
  draws := 0

/-- Why the machine is STUCK: it has no step (00_scope.md R115 "no step", 93_implementation_defined.md U7, U15
treatment `stuck`). The block's own two faults are NOT here: they latch, and their entry is a next state
(60_exceptions.md R97). -/
inductive Fault where
  /-- Raised by a word (`PUSH`) that is not enabled: `STATE` is not `S_RUN`, or `ROW_VALID = 1`, or `CHANNEL_COUNT`
  is 0 (42_row_and_host_ops.md R84, R89). Safe: the spec gives no step. -/
  | pushNotEnabled
  /-- Raised by a `CONFIGURE` outside `S_UNCONF` (42_row_and_host_ops.md R82, R89). Safe: the spec gives no step. -/
  | configureNotEnabled
  /-- Raised by a `TAKE_ROW` without a complete row (42_row_and_host_ops.md R86, R89). Safe: the spec gives no step. -/
  | takeRowNotEnabled
  /-- Raised by a step when the host has issued no operation: the block waits (60_exceptions.md R94,
  93_implementation_defined.md U15). Safe: the spec gives no step. -/
  | noOperationPending
  deriving DecidableEq, Repr

/-- Why an operation is REFUSED. -/
inductive Refusal where
  /-- Raised by `exec` for an instruction without a meaning, by its mnemonic. Safe: nothing can be proved of it. -/
  | notModelled (mnemonic : String)
  /-- Raised by `READ_REG` of a register that is not readable in the present state: it holds NOVAL, its number is
  unassigned, or it is `OUT[j]` outside a complete row (10_state.md R19, R21; 93_implementation_defined.md U8
  treatment `refuse`). Safe: the spec gives no step and no value. -/
  | registerNotReadable (r : RegNumber)
  /-- Raised by a word or a `TAKE_ROW` that needs a register holding NOVAL. No reachable state does so
  (10_state.md R19; `Safety.State.Inv` rules it out; log 10). Safe: no value is made up. -/
  | operandHoldsNoValue
  deriving DecidableEq, Repr

end Sys2Proof.Machine
end

