-- ==== Sys2Proof/Machine/Flags.lean ====
section
/-! DEFINITION. `STATUS` and its fields (10_state.md R14, R15, R22), and the `fault` level (60_exceptions.md R95). -/

namespace Sys2Proof.Machine

/-- The two-bit code of `STATE` (10_state.md R14). -/
def Phase.code : Phase → BitVec 2
  | .unconf => 0
  | .run => 1
  | .faultSync => 2
  | .faultCfg => 3

/-- `STATUS`: `STATE` in bits 1:0, `ROW_VALID` in bit 2, zero above (10_state.md R22). -/
def statusWord (s : State) : BitVec 32 := 0#29 ++ BitVec.ofBool s.rowValid ++ s.phase.code

/-- The level `fault` = `STATE[1]` (60_exceptions.md R95). -/
def faultLevel (s : State) : Bool := s.phase.code.getLsbD 1

/-- Whether `advance` completes the row: `IDX + 1 = CHANNEL_COUNT`, computed in more bits than `IDX` has
(42_row_and_host_ops.md R85, 40_frame_words.md R61). -/
def rowCompletes (idx : Index) (n : Count) : Bool := decide (idx.toNat + 1 = n.toNat)

end Sys2Proof.Machine
end

