-- ==== Sys2Proof/WellFormed.lean ====
section
/-! DEFINITION. What is well formed: an instruction, a row of words (42_row_and_host_ops.md R78), and an operation
as 30_encoding.md R48 lets one write it, whose numbers must fit their operands. -/

namespace Sys2Proof

/-- Every term of `Instr` is an instruction of the hardware: "every one of the 14 data bit patterns is a valid
sample code" and nothing is reserved (30_encoding.md R46). The bound of R44 is checked all the same. -/
def Instr.wf (i : Instr) : Bool := decide (i.raw14.toNat ≤ 16383)

/-- The domain of the row function: a list of exactly `n` words, `n` at most `MAX_CHANNELS`
(42_row_and_host_ops.md R78). -/
def rowWf (words : List Word16) (n : Nat) : Bool := decide (words.length = n ∧ n ≤ Config.maxChannels)

/-- A calibration constant as a listing writes it: "decimal reals or 0x bit patterns" (30_encoding.md R48). -/
inductive RealLit where
  /-- A 32-bit pattern written in hexadecimal. -/
  | bits (pattern : Nat)
  /-- The decimal real `num / 10 ^ places`, negated when `neg`. -/
  | decimal (neg : Bool) (num places : Nat)
  deriving DecidableEq, Repr

/-- A register as a listing names it: "number or name" (30_encoding.md R48), with the names of 10_state.md R21. -/
inductive RegLit where
  | number (r : Nat)
  | status
  | channelCount
  | fullScale
  | fudge
  | idx
  | errIndex
  | errWord
  /-- `OUT[j]`. -/
  | out (j : Nat)
  deriving DecidableEq, Repr

/-- One line of a listing (30_encoding.md R48): the operation written, with its numbers as written. -/
inductive Line where
  | first (raw14 : Nat)
  | next (raw14 : Nat)
  | bad00 (raw14 : Nat)
  | bad01 (raw14 : Nat)
  /-- `WORD <hex16>`: a word given by its 16 bits. -/
  | word (bits : Nat)
  | reset
  | configure (n : Nat) (fs ff : RealLit)
  | takeRow
  | readReg (r : RegLit)
  deriving DecidableEq, Repr

/-- A constant's pattern fits 32 bits; a decimal real always has a binary32 value (41_numerics.md R67). -/
def RealLit.wf : RealLit → Bool
  | .bits p => decide (p < 2 ^ 32)
  | .decimal _ _ _ => true

/-- A register number is at most 63 (42_row_and_host_ops.md R87), an `OUT` index at most 31 (10_state.md R18). -/
def RegLit.wf : RegLit → Bool
  | .number r => decide (r ≤ 63)
  | .out j => decide (j ≤ 31)
  | .status => true
  | .channelCount => true
  | .fullScale => true
  | .fudge => true
  | .idx => true
  | .errIndex => true
  | .errWord => true

/-- The bounds 30_encoding.md R48 and 42_row_and_host_ops.md R82, R87 give a line's numbers. -/
def Line.wf : Line → Bool
  | .first r => decide (r ≤ 16383)
  | .next r => decide (r ≤ 16383)
  | .bad00 r => decide (r ≤ 16383)
  | .bad01 r => decide (r ≤ 16383)
  | .word w => decide (w < 2 ^ 16)
  | .reset => true
  | .configure n fs ff => decide (n ≤ 255) && fs.wf && ff.wf
  | .takeRow => true
  | .readReg r => r.wf

end Sys2Proof
end

