-- ==== Sys2Proof/Decode.lean ====
section
/-! DEFINITION. From bits to instructions and back: the wire's byte order (20_memory.md R28), the sync field and
the sample code (30_encoding.md R41, R44), the opcode map (R42) and its inverse (R45). -/

namespace Sys2Proof

/-- The sync field, left in place (30_encoding.md R41). -/
def syncOf (w : Word16) : Word16 := w &&& Config.syncMask

/-- The sample code of a word, as DQ's masks and shifts (30_encoding.md R44, 40_frame_words.md R53). -/
def extract (w : Word16) : Code14 :=
  (((w &&& 0xFE00#16) >>> 2) ||| ((w &&& 0x00FE#16) >>> 1)).setWidth 14

/-- `enc(s1, s0, raw14)`, the word with the given sync bits and code (30_encoding.md R45). -/
def enc (s1 s0 : Bool) (raw14 : Code14) : Word16 :=
  ((raw14.setWidth 16 >>> 7) <<< 9) ||| ((BitVec.ofBool s1).setWidth 16 <<< 8)
    ||| ((raw14.setWidth 16 &&& 0x7F#16) <<< 1) ||| (BitVec.ofBool s0).setWidth 16

/-- The opcode map (30_encoding.md R42): total, every 16-bit value is of exactly one kind (R46). -/
def decodeWord (w : Word16) : Instr :=
  if syncOf w = 0x0100#16 then .first (extract w)
  else if syncOf w = 0x0101#16 then .next (extract w)
  else if syncOf w = 0x0000#16 then .bad00 (extract w)
  else .bad01 (extract w)

/-- `WireWord(b0, b1)`, `b0` received first (20_memory.md R28). -/
def wireWord (b0 b1 : Byte) : Word16 := (b1.setWidth 16 <<< 8) ||| b0.setWidth 16

/-- Why a byte sequence holds no instruction. The only reason there is: every word of two bytes is one of the
four kinds (30_encoding.md R46). -/
inductive DecodeError where
  /-- Fewer than the two bytes of a word are there (30_encoding.md R39). -/
  | fewerThanTwoBytes
  deriving DecidableEq, Repr

/-- The instruction at the front of a byte sequence in arrival order, and the bytes after it. -/
def decode : List Byte → Except DecodeError (Instr × List Byte)
  | b0 :: b1 :: rest => .ok (decodeWord (wireWord b0 b1), rest)
  | [_] => .error .fewerThanTwoBytes
  | [] => .error .fewerThanTwoBytes

/-- The word of an instruction (30_encoding.md R45, with the sync pairs of R41). -/
def encode (i : Instr) : Word16 := enc i.syncPair.1 i.syncPair.2 i.raw14

/-- A word's two bytes in arrival order: `{DL, S0}`, then `{DH, S1}` (30_encoding.md R50). -/
def wireBytes (w : Word16) : List Byte := [w.extractLsb' 0 8, w.extractLsb' 8 8]

/-- An instruction's bytes in arrival order. -/
def encodeBytes (i : Instr) : List Byte := wireBytes (encode i)

/-- A stream's words from its bytes (20_memory.md R29: word `j` is `WireWord(B[2j], B[2j+1])`); a single byte
left over makes no word. -/
def wireWords : List Byte → List Word16
  | b0 :: b1 :: rest => wireWord b0 b1 :: wireWords rest
  | [_] => []
  | [] => []

/-- The bytes of a number, least significant first, as a stream delivers them. -/
def littleEndian : Nat → Nat → List Byte
  | 0, _ => []
  | k + 1, v => BitVec.ofNat 8 v :: littleEndian k (v / 256)

/-- The two bytes at the front of the stream when a table row's `nbits` bits are `w`, every bit above them 0. -/
def tableBytes (nbits w : Nat) : List Byte := littleEndian 2 (w % 2 ^ nbits)

/-- The instruction the decoder reads from `nbits` bits numbered as spec/opcode_table.json numbers them. A row is
one word of 16 bits (30_encoding.md R39), so more bits are no instruction. -/
def decodeTableWord (nbits w : Nat) : Option Instr :=
  if nbits ≤ 16 then
    match decode (tableBytes nbits w) with
    | .ok (i, _) => some i
    | .error _ => none
  else none

end Sys2Proof
end

