-- ==== Sys2Proof/Machine/Numerics.lean ====
section
/-! DEFINITION. The binary32 numerics of the calibration stage (41_numerics.md R63 to R75).

A finite magnitude is held exactly, as a natural number of UNITS of 2^-149 (the smallest subnormal): every operation
computes its exact result as a quotient of naturals in that unit and rounds it once. -/

namespace Sys2Proof.Machine.F32

/-! ## The format (R63) -/

/-- Bit 31. -/
def sign (x : F32) : Bool := decide (2 ^ 31 ≤ x.toNat)

/-- Bits 30:0, the exponent and fraction fields read as one number: they order the magnitudes. -/
def magBits (x : F32) : Nat := x.toNat % 2 ^ 31

/-- Bits 30:23, the biased exponent. -/
def expField (x : F32) : Nat := magBits x / 2 ^ 23

/-- Bits 22:0. -/
def fracField (x : F32) : Nat := magBits x % 2 ^ 23

/-- The magnitude bits of an infinity. -/
def infBits : Nat := 0x7F800000

/-- The classes of R63. -/
inductive Class where
  | zero
  | subnormal
  | normal
  | infinite
  | quietNaN
  | signallingNaN
  deriving DecidableEq, Repr

/-- The class of a bit pattern, by its fields (R63). -/
def classify (x : F32) : Class :=
  if expField x = 255 then
    if fracField x = 0 then .infinite
    else if 2 ^ 22 ≤ fracField x then .quietNaN
    else .signallingNaN
  else if expField x = 0 then
    if fracField x = 0 then .zero else .subnormal
  else .normal

/-- The exponent field is all ones and the fraction is not zero. -/
def isNaN (x : F32) : Bool := decide (infBits < magBits x)

/-- The exponent field is all ones and the fraction is zero. -/
def isInf (x : F32) : Bool := decide (magBits x = infBits)

/-- The exponent field is not all ones. -/
def isFinite (x : F32) : Bool := decide (magBits x < infBits)

/-- `+0` or `-0`. -/
def isZero (x : F32) : Bool := decide (magBits x = 0)

/-- The pattern with a given sign and given magnitude bits. -/
def pack (s : Bool) (m : Nat) : F32 := BitVec.ofNat 32 ((if s then 2 ^ 31 else 0) + m)

/-- The pattern with its sign bit flipped. -/
def neg (x : F32) : F32 := x ^^^ 0x80000000#32

/-- A finite magnitude in units of 2^-149 (R63): a zero or subnormal is its fraction, a normal number is
`(2^23 + f) x 2^(e-1)`. -/
def unitsOfMag (m : Nat) : Nat :=
  if m < 2 ^ 23 then m else (2 ^ 23 + m % 2 ^ 23) * 2 ^ (m / 2 ^ 23 - 1)

/-- The magnitude of a finite value in units of 2^-149. -/
def units (x : F32) : Nat := unitsOfMag (magBits x)

/-- The value of a finite pattern, signed, in units of 2^-149. -/
def signedUnits (x : F32) : Int := if sign x then -(units x : Int) else units x

/-! ## Rounding (R65) -/

/-- `a / b` rounded to the nearest integer, a tie to the even one. -/
def roundDiv (a b : Nat) : Nat :=
  if b < 2 * (a % b) ∨ (2 * (a % b) = b ∧ (a / b) % 2 = 1) then a / b + 1 else a / b

/-- One unit in the last place of a magnitude whose integer part is `q` units, as a power of two: 24 significant
bits, and never less than one unit (gradual underflow, R73). -/
def ulpExp (q : Nat) : Nat := Nat.log2 q - 23

/-- The magnitude bits of the exact magnitude `num / den` units, rounded to nearest, ties to even (R65); a rounded
magnitude of 2^128 or more is an infinity (R72). A carry out of the fraction moves into the exponent by itself. -/
def roundMag (num den : Nat) : Nat :=
  min infBits (ulpExp (num / den) * 2 ^ 23 + roundDiv num (den * 2 ^ ulpExp (num / den)))

/-- The value one, in units. -/
def unit : Nat := 2 ^ 149

/-! ## NaN results (R71) -/

/-- A quiet NaN whose sign and low 22 fraction bits are the draw `d`. -/
def quietNaN (d : BitVec 23) : F32 := d.extractLsb' 22 1 ++ 0x1FF#9 ++ d.extractLsb' 0 22

/-! ## The four operations (R64); `d` is the draw a NaN result takes -/

/-- The binary32 value of an unsigned integer; exact for 14 bits (R68). -/
def u2f (n : Nat) : F32 := pack false (roundMag (n * unit) 1)

/-- Multiplication: NaNs (R71), infinities (R72), then the exact product rounded once; a zero takes the exclusive
or of the signs (R70). -/
def fmul (d : BitVec 23) (a b : F32) : F32 :=
  if isNaN a || isNaN b then quietNaN d
  else if (isInf a && isZero b) || (isZero a && isInf b) then quietNaN d
  else if isInf a || isInf b then pack (sign a ^^ sign b) infBits
  else pack (sign a ^^ sign b) (roundMag (units a * units b) unit)

/-- Division. The block uses it only as `fdiv(u2f(r), 8192.0)`; the other operands follow IEEE 754 (log 6). -/
def fdiv (d : BitVec 23) (a b : F32) : F32 :=
  if isNaN a || isNaN b then quietNaN d
  else if (isInf a && isInf b) || (isZero a && isZero b) then quietNaN d
  else if isInf a || isZero b then pack (sign a ^^ sign b) infBits
  else if isInf b then pack (sign a ^^ sign b) 0
  else pack (sign a ^^ sign b) (roundMag (units a * unit) (units b))

/-- Subtraction. The block uses it only as `fsub(t1, 1.0)`; the other operands follow IEEE 754 (log 6). The exact
difference of two equal numbers is `+0` under round to nearest (R68), and `-0` only for `-0 - +0`. -/
def fsub (d : BitVec 23) (a b : F32) : F32 :=
  if isNaN a || isNaN b then quietNaN d
  else if isInf a && isInf b then (if sign a = sign b then quietNaN d else a)
  else if isInf a then a
  else if isInf b then neg b
  else if signedUnits a = signedUnits b then pack (isZero a && sign a && !sign b) 0
  else pack (decide (signedUnits a < signedUnits b)) (roundMag (signedUnits a - signedUnits b).natAbs 1)

/-- The binary32 value of the decimal real `num / 10^places`, as a listing writes it (30_encoding.md R48, R67; log 15). -/
def ofDecimal (s : Bool) (num places : Nat) : F32 := pack s (roundMag (num * unit) (10 ^ places))

end Sys2Proof.Machine.F32

namespace Sys2Proof.Machine

/-- `NUMERICS` (41_numerics.md R75): four total functions on bit patterns that depend on their operands alone. -/
structure Numerics where
  u2f : Nat → F32
  fdiv : F32 → F32 → F32
  fsub : F32 → F32 → F32
  fmul : F32 → F32 → F32

/-- The parameter `NUMERICS` of the model (00_scope.md R8 "open", 93_implementation_defined.md U3) together with the draw
`NAN_DRAW`: for each draw, the record whose NaN results take it. Everything that computes a sample takes one (log 7). -/
abbrev DrawnNumerics := BitVec 23 → Numerics

/-- The default, the instance the spec decides, rules R63 to R74, with the draw `d` for NaN results (log 7). -/
def binary32 : DrawnNumerics := fun d =>
  { u2f := F32.u2f, fdiv := F32.fdiv d, fsub := F32.fsub d, fmul := F32.fmul d }

/-- The scaled and centred code `t2` (41_numerics.md R66). -/
def centredWith (N : Numerics) (r : Code14) : F32 := N.fsub (N.fdiv (N.u2f r.toNat) Config.f8192) Config.fOne

/-- `calibrate(r, fs, ff)` under a `NUMERICS` record: the products in the decided order, `(FUDGE x FULL_SCALE) x t2`
(40_frame_words.md R54, 41_numerics.md R66). -/
def calibrateWith (N : Numerics) (r : Code14) (fs ff : F32) : F32 := N.fmul (N.fmul ff fs) (centredWith N r)

/-- `calibrate(r, fs, ff)` of the block: binary32, with the draw `d` should the result be a NaN. -/
def calibrate (d : BitVec 23) (r : Code14) (fs ff : F32) : F32 := calibrateWith (binary32 d) r fs ff

/-- The integer form of `t2` (41_numerics.md R69): `d = r - 8192` signed, then `d x 2^-13` converted exactly. -/
def centredInteger (r : Code14) : F32 :=
  F32.pack (decide (r.toNat < 8192))
    (F32.roundMag ((((r.toNat : Int) - 8192).natAbs) * 2 ^ 136) 1)

end Sys2Proof.Machine
end

