-- ==== Sys2Proof/Machine/Operands.lean ====
section
/-! DEFINITION. What a word is judged by and what it is worth: the expected sync pattern, the validator, one word
through all stages (40_frame_words.md R51, R52, R55), and access to the row buffer by index (20_memory.md R27). -/

namespace Sys2Proof.Machine

/-- The sync pattern expected of the word at index `j` of a row (40_frame_words.md R51). -/
def expect (j : Nat) : Word16 := if j = 0 then Config.syncFirst else Config.syncNext

/-- Stage 1, the sync-bit validator (40_frame_words.md R52). -/
def syncOk (j : Nat) (w : Word16) : Bool := decide (w &&& Config.syncMask = expect j)

/-- `SyncBitViolation(index, word)` as an error value of the pure functions (60_exceptions.md R91). -/
structure SyncBitViolation where
  index : Nat
  word : Word16
  deriving DecidableEq, Repr

/-- `decode_word` (40_frame_words.md R55): the check first, then the value, under a `NUMERICS` record. -/
def decodeSample (N : Numerics) (j : Nat) (w : Word16) (fs ff : F32) : Except SyncBitViolation F32 :=
  if syncOk j w then .ok (calibrateWith N (extract w) fs ff) else .error ⟨j, w⟩

/-- `OUT[j]`. -/
def readOut (b : RowBuffer) (j : Index) : Option F32 := b[j.toNat]'(j.isLt)

/-- `OUT[j] <- v`. -/
def writeOut (b : RowBuffer) (j : Index) (v : F32) : RowBuffer := b.set j.toNat (some v) j.isLt

/-- `[OUT[0], ..., OUT[n-1]]`, when they all hold values (42_row_and_host_ops.md R86). -/
def rowValues (b : RowBuffer) (n : Nat) : Option (List F32) := (b.toList.take n).mapM id

end Sys2Proof.Machine
end

