-- ==== Sys2Proof/Machine/Ops.lean ====
section
/-! DEFINITION. The shared operations on the state: fault entry (60_exceptions.md R97), reset (42_row_and_host_ops.md
R81), the latch of a configuration (R82), what an accepted word does (R84, R85), and what a register read gives
(10_state.md R21). -/

namespace Sys2Proof.Machine

/-! ## Fault entry, and the one way out of a fault -/

/-- `raise SyncBitViolation(IDX, w)` (60_exceptions.md R97): the pair is recorded, the row is invalidated, the phase
changes; `IDX`, `ROW_VALID` and the configuration are kept. -/
def raiseSyncBitViolation (w : Word16) (s : State) : State :=
  { s with errIndex := some s.idx, errWord := some w, out := emptyRow, phase := .faultSync }

/-- `raise ConfigurationOutOfRange(n)` (60_exceptions.md R92, R97): the phase changes, `n` is not kept. -/
def raiseConfigurationOutOfRange (s : State) : State := { s with phase := .faultCfg }

/-- `RESET` (42_row_and_host_ops.md R81), the only way out of a fault (60_exceptions.md R99): the nine items take
their reset values; the host's own operations and results are the host's (log 1), and draws are never drawn twice. -/
def resetBlock (s : State) : State :=
  { State.reset with pending := s.pending, replies := s.replies, draws := s.draws }

/-! ## Configuration -/

/-- The latch of a configuration that is in range (42_row_and_host_ops.md R82). -/
def latchConfiguration (n : BitVec 8) (fs ff : F32) (s : State) : State :=
  { s with channelCount := some (n.setWidth 6), fullScale := some fs, fudge := some ff, phase := .run }

/-! ## Words -/

/-- `CHANNEL_COUNT` when `PUSH` is enabled: `STATE = S_RUN`, `ROW_VALID = 0`, `CHANNEL_COUNT >= 1`
(42_row_and_host_ops.md R84). -/
def pushCount (s : State) : Option Count :=
  if s.phase = .run ∧ s.rowValid = false then s.channelCount.filter (fun n => decide (1 ≤ n.toNat)) else none

/-- Every word is executed by a `PUSH` (40_frame_words.md R56 to R59), so it has a step only when `PUSH` is enabled. -/
def whenPushEnabled (s : State) (k : Count → Host.Outcome State Fault Refusal) : Host.Outcome State Fault Refusal :=
  match pushCount s with
  | some n => k n
  | none => .fault .pushNotEnabled

/-- `OUT[j] <- v`; a NaN draw is spent with every value written (log 5). -/
def writeSample (j : Index) (v : F32) (s : State) : State :=
  { s with out := writeOut s.out j v, draws := s.draws + 1 }

/-- `advance()` with `CHANNEL_COUNT = n` (42_row_and_host_ops.md R85). -/
def advance (n : Count) (s : State) : State :=
  if rowCompletes s.idx n then { s with idx := 0, rowValid := true } else { s with idx := s.idx + 1 }

/-- What a word that passed the check does at index `j`: the value of its code, then `advance()`
(40_frame_words.md R56, R57), under any `NUMERICS`. -/
def acceptSample (N : DrawnNumerics) (j : Index) (r : Code14) (n : Count) (s : State) :
    Host.Outcome State Fault Refusal :=
  match s.fullScale, s.fudge with
  | some fs, some ff => .next (advance n (writeSample j (calibrateWith (N (Config.nanDraw s.draws)) r fs ff) s))
  | _, _ => .refused .operandHoldsNoValue

/-- `PUSH(w)` as 42_row_and_host_ops.md R84 writes it, on the word and the expected pattern. The machine executes
the word kinds of 40_frame_words.md R56 to R59; that the two agree is a statement. -/
def pushWord (N : DrawnNumerics) (w : Word16) (s : State) : Host.Outcome State Fault Refusal :=
  whenPushEnabled s fun n =>
    if syncOk s.idx.toNat w then acceptSample N s.idx (extract w) n s else .next (raiseSyncBitViolation w s)

/-! ## Results -/

/-- The host receives a result. -/
def addReply (r : Reply) (s : State) : State := { s with replies := s.replies ++ [r] }

/-- A complete row is handed over: `ROW_VALID <- 0`, every entry NOVAL (42_row_and_host_ops.md R86). -/
def releaseRow (s : State) : State := { s with rowValid := false, out := emptyRow }

/-- A configuration register is readable in `S_RUN` and `S_FAULT_SYNC` (10_state.md R21). -/
def configReadable (s : State) : Bool := decide (s.phase = .run ∨ s.phase = .faultSync)

/-- `OUT[j]` is readable in `S_RUN` with a complete row, for `j < CHANNEL_COUNT` (10_state.md R18, R21). -/
def outReadable (s : State) (j : Index) : Bool :=
  decide (s.phase = .run) && s.rowValid && s.channelCount.any (fun n => decide (j.toNat < n.toNat))

/-- The value of register `r`, zero-extended, where the table of 10_state.md R21 lets it be read. -/
def readRegister (r : RegNumber) (s : State) : Option (BitVec 32) :=
  if r = 0 then some (statusWord s)
  else if r = 1 then (if configReadable s then s.channelCount.map (·.setWidth 32) else none)
  else if r = 2 then (if configReadable s then s.fullScale else none)
  else if r = 3 then (if configReadable s then s.fudge else none)
  else if r = 4 then some (s.idx.setWidth 32)
  else if r = 5 then (if s.phase = .faultSync then s.errIndex.map (·.setWidth 32) else none)
  else if r = 6 then (if s.phase = .faultSync then s.errWord.map (·.setWidth 32) else none)
  else if 32 ≤ r.toNat then
    (if outReadable s (BitVec.ofNat 5 (r.toNat - 32)) then readOut s.out (BitVec.ofNat 5 (r.toNat - 32)) else none)
  else none

end Sys2Proof.Machine
end

