-- ==== Sys2Proof/Machine/FrameWords.lean ====
section
/-! DEFINITION. The meanings of the four word kinds (40_frame_words.md R56 to R59). The word a fault records is the
word of the instruction: `encode` gives back all 16 bits of it (30_encoding.md R45; log 12). -/

namespace Sys2Proof.Machine

/-- `FIRST raw14` under any `NUMERICS` (40_frame_words.md R56, 41_numerics.md R75). -/
def execFirstWith (N : DrawnNumerics) (raw14 : Code14) (s : State) : Host.Outcome State Fault Refusal :=
  whenPushEnabled s fun n =>
    if s.idx ≠ 0 then .next (raiseSyncBitViolation (encode (.first raw14)) s) else acceptSample N 0 raw14 n s

/-- `NEXT raw14` under any `NUMERICS` (40_frame_words.md R57, 41_numerics.md R75). -/
def execNextWith (N : DrawnNumerics) (raw14 : Code14) (s : State) : Host.Outcome State Fault Refusal :=
  whenPushEnabled s fun n =>
    if s.idx = 0 then .next (raiseSyncBitViolation (encode (.next raw14)) s) else acceptSample N s.idx raw14 n s

/-- `FIRST raw14` (40_frame_words.md R56) with the default numerics. -/
def execFirst (raw14 : Code14) (s : State) : Host.Outcome State Fault Refusal := execFirstWith binary32 raw14 s

/-- `NEXT raw14` (40_frame_words.md R57) with the default numerics. -/
def execNext (raw14 : Code14) (s : State) : Host.Outcome State Fault Refusal := execNextWith binary32 raw14 s

/-- `BAD00 raw14` (40_frame_words.md R58): illegal at every index. -/
def execBad00 (raw14 : Code14) (s : State) : Host.Outcome State Fault Refusal :=
  whenPushEnabled s fun _ => .next (raiseSyncBitViolation (encode (.bad00 raw14)) s)

/-- `BAD01 raw14` (40_frame_words.md R59): illegal at every index. -/
def execBad01 (raw14 : Code14) (s : State) : Host.Outcome State Fault Refusal :=
  whenPushEnabled s fun _ => .next (raiseSyncBitViolation (encode (.bad01 raw14)) s)

/-- A word of any kind under any `NUMERICS` (00_scope.md R8); `exec` is this with the default. The two always-illegal
kinds compute nothing. -/
def execWith (N : DrawnNumerics) (i : Instr) (s : State) : Host.Outcome State Fault Refusal :=
  match i with
  | .first raw14 => execFirstWith N raw14 s
  | .next raw14 => execNextWith N raw14 s
  | .bad00 raw14 => execBad00 raw14 s
  | .bad01 raw14 => execBad01 raw14 s

end Sys2Proof.Machine
end

