-- ==== Sys2Proof/Machine/Dispatch.lean ====
section
/-! DEFINITION. One arm per word kind of 30_encoding.md R42. -/

namespace Sys2Proof.Machine

def exec (i : Instr) (s : State) : Host.Outcome State Fault Refusal :=
  match i with
  | .first raw14 => Sys2Proof.Machine.execFirst raw14 s
  | .next raw14 => Sys2Proof.Machine.execNext raw14 s
  | .bad00 raw14 => Sys2Proof.Machine.execBad00 raw14 s
  | .bad01 raw14 => Sys2Proof.Machine.execBad01 raw14 s

end Sys2Proof.Machine
end

