-- ==== Sys2Proof/Machine/HostOps.lean ====
section
/-! DEFINITION. The five host operations (42_row_and_host_ops.md R81 to R87), which have no bit encoding
(30_encoding.md R49), and the next operation of the host's list. -/

namespace Sys2Proof.Machine

/-- `RESET` (42_row_and_host_ops.md R81): always enabled. -/
def performReset (s : State) : Host.Outcome State Fault Refusal := .next (resetBlock s)

/-- `CONFIGURE(n, fs, ff)` (42_row_and_host_ops.md R82, R83): enabled in `S_UNCONF`. -/
def performConfigure (n : BitVec 8) (fs ff : F32) (s : State) : Host.Outcome State Fault Refusal :=
  if s.phase = .unconf then
    if Config.maxChannels < n.toNat then .next (raiseConfigurationOutOfRange s)
    else .next (latchConfiguration n fs ff s)
  else .fault .configureNotEnabled

/-- How a word is executed: `exec`, or `execWith N` for another `NUMERICS`. -/
abbrev WordExec := Instr → State → Host.Outcome State Fault Refusal

/-- `PUSH(w)` (42_row_and_host_ops.md R84): the word's kind is decoded and executed. -/
def performPush (run : WordExec) (w : Word16) (s : State) : Host.Outcome State Fault Refusal := run (decodeWord w) s

/-- `TAKE_ROW` (42_row_and_host_ops.md R86): enabled in `S_RUN` with `ROW_VALID = 1`. -/
def performTakeRow (s : State) : Host.Outcome State Fault Refusal :=
  if s.phase = .run ∧ s.rowValid = true then
    match s.channelCount.bind (fun n => rowValues s.out n.toNat) with
    | some vs => .next (addReply (.row vs) (releaseRow s))
    | none => .refused .operandHoldsNoValue
  else .fault .takeRowNotEnabled

/-- `READ_REG(r)` (42_row_and_host_ops.md R87): enabled where 10_state.md R21 says the register is readable. -/
def performReadReg (r : RegNumber) (s : State) : Host.Outcome State Fault Refusal :=
  match readRegister r s with
  | some v => .next (addReply (.register r v) s)
  | none => .refused (.registerNotReadable r)

/-- One operation of the host, words executed by `run`. -/
def performOn (run : WordExec) (op : HostOp) (s : State) : Host.Outcome State Fault Refusal :=
  match op with
  | .reset => performReset s
  | .configure n fs ff => performConfigure n fs ff s
  | .push w => performPush run w s
  | .takeRow => performTakeRow s
  | .readReg r => performReadReg r s

/-- One operation of the host. -/
def perform (op : HostOp) (s : State) : Host.Outcome State Fault Refusal := performOn exec op s

/-- The next operation the host has issued is taken and performed; without one the block waits
(60_exceptions.md R94; log 4). -/
def performNext (run : WordExec) (s : State) : Host.Outcome State Fault Refusal :=
  match s.pending with
  | op :: rest => performOn run op { s with pending := rest }
  | [] => .fault .noOperationPending

/-- A session in which a word can be pushed as word 0 of a row: as `s` where `PUSH` is enabled in it, else what
`RESET; CONFIGURE 32, 1.0, 1.0` makes of it (70_reset_and_hazards.md R108; log 9). -/
def readyForWord (s : State) : State :=
  if (pushCount s).isSome then s else latchConfiguration 32 Config.fOne Config.fOne (resetBlock s)

/-- The word whose low bits are `w`'s low `nbits` bits, pushed next (log 9). -/
def placeWord (nbits w : Nat) (s : State) : State :=
  let t := readyForWord s
  { t with pending := .push (BitVec.ofNat 16 (w % 2 ^ nbits)) :: t.pending }

end Sys2Proof.Machine
end

