-- ==== Sys2Proof/Machine/Step.lean ====
section
/-! DEFINITION. One step: the block moves only when the host performs an operation on it (00_scope.md section 4,
60_exceptions.md R94). -/

namespace Sys2Proof.Machine

/-- One step of the machine: the host's next operation. -/
def step (s : State) : Host.Outcome State Fault Refusal := performNext exec s

/-- One step of the machine with another `NUMERICS` (00_scope.md R8; log 7); `step` is this with the default. -/
def stepWith (N : DrawnNumerics) (s : State) : Host.Outcome State Fault Refusal := performNext (execWith N) s

/-- `s` with a word placed where the next step takes it: a `PUSH` of it stands first in the host's list, in a
session that accepts words (log 9). -/
def State.withFetchWord (s : State) (nbits w : Nat) : State := placeWord nbits w s

end Sys2Proof.Machine
end

