-- ==== Sys2Proof/Machine/Listing.lean ====
section
/-! DEFINITION. What a written line stands for (30_encoding.md R48): "Each of the first five lines stands for `PUSH(w)`
with `w` the encoded word". -/

namespace Sys2Proof.Machine

/-- The binary32 value of a written constant; a decimal real is rounded to nearest (41_numerics.md R67; log 15). -/
def realValue : RealLit → F32
  | .bits p => BitVec.ofNat 32 p
  | .decimal s num places => F32.ofDecimal s num places

/-- The number of a named register (10_state.md R21). -/
def regNumber : RegLit → RegNumber
  | .number r => BitVec.ofNat 6 r
  | .status => 0
  | .channelCount => 1
  | .fullScale => 2
  | .fudge => 3
  | .idx => 4
  | .errIndex => 5
  | .errWord => 6
  | .out j => BitVec.ofNat 6 (32 + j)

/-- The operation a well-formed line stands for; none for a number that does not fit. -/
def assemble (l : Line) : Option HostOp :=
  if l.wf then
    some (match l with
      | .first r => .push (encode (.first (BitVec.ofNat 14 r)))
      | .next r => .push (encode (.next (BitVec.ofNat 14 r)))
      | .bad00 r => .push (encode (.bad00 (BitVec.ofNat 14 r)))
      | .bad01 r => .push (encode (.bad01 (BitVec.ofNat 14 r)))
      | .word w => .push (BitVec.ofNat 16 w)
      | .reset => .reset
      | .configure n fs ff => .configure (BitVec.ofNat 8 n) (realValue fs) (realValue ff)
      | .takeRow => .takeRow
      | .readReg r => .readReg (regNumber r))
  else none

end Sys2Proof.Machine
end

