-- ==== Sys2Proof/Machine/Row.lean ====
section
/-! DEFINITION. DQ's own view: the pure row function (42_row_and_host_ops.md R77, R78) and the row as a vector of
lanes (R80), under any `NUMERICS`. Word `j`'s NaN draw is number `d + j`, so that the same row gives the same bits for
the same draws (10_state.md R23; log 16). -/

namespace Sys2Proof.Machine

/-- The loop of 42_row_and_host_ops.md R77, from index `j`, draws from `d`: the first bad word ends it. -/
def decodeRowFrom (N : DrawnNumerics) (d j : Nat) (words : List Word16) (fs ff : F32) :
    Except SyncBitViolation (List F32) :=
  match words with
  | [] => .ok []
  | w :: ws =>
    match decodeSample (N (Config.nanDraw d)) j w fs ff with
    | .error e => .error e
    | .ok v =>
      match decodeRowFrom N (d + 1) (j + 1) ws fs ff with
      | .error e => .error e
      | .ok vs => .ok (v :: vs)

/-- `decode_row(words, n, fs, ff)` (42_row_and_host_ops.md R77); no result outside its domain (R78). -/
def decodeRow (N : DrawnNumerics) (d : Nat) (words : List Word16) (n : Nat) (fs ff : F32) :
    Option (Except SyncBitViolation (List F32)) :=
  if rowWf words n then some (decodeRowFrom N d 0 words fs ff) else none

/-- Lane `j` of the row, computed from its own word alone (42_row_and_host_ops.md R80). -/
def lane (N : DrawnNumerics) (d : Nat) (fs ff : F32) (j : Nat) (w : Word16) : Except SyncBitViolation F32 :=
  decodeSample (N (Config.nanDraw (d + j))) j w fs ff

/-- All lanes at once; "the row's result is the error of the lowest faulting lane if any lane faults"
(42_row_and_host_ops.md R80). -/
def decodeLanes (N : DrawnNumerics) (d : Nat) (words : List Word16) (fs ff : F32) : Except SyncBitViolation (List F32) :=
  (words.mapIdx (lane N d fs ff)).mapM id

end Sys2Proof.Machine
end

