-- ==== Sys2Proof/Machine/Enabled.lean ====
section
/-! DEFINITION. The table of 42_row_and_host_ops.md R89, written as it stands, row by row: which operation is enabled
in which state. The operations of Machine/HostOps.lean have their own conditions from their own rules; that the two
agree is a statement. -/

namespace Sys2Proof.Machine

/-- The rows of the table. -/
inductive TableRow where
  | unconf
  | accepting
  | rowComplete
  | noChannels
  | faultSync
  | faultCfg
  deriving DecidableEq, Repr

/-- Which row of the table a state stands in; a NOVAL count in `S_RUN` stands in none. -/
def tableRow (s : State) : Option TableRow :=
  match s.phase with
  | .unconf => some .unconf
  | .faultSync => some .faultSync
  | .faultCfg => some .faultCfg
  | .run =>
    if s.rowValid then some .rowComplete
    else s.channelCount.map fun n => if n = 0 then .noChannels else .accepting

/-- The register numbers of the table's last column. -/
def regEnabled (row : TableRow) (s : State) (r : Nat) : Bool :=
  match row with
  | .unconf => r = 0 || r = 4
  | .accepting => decide (r ≤ 4)
  | .rowComplete => decide (r ≤ 4) || (decide (32 ≤ r) && decide (r - 32 < (s.channelCount.getD 0).toNat))
  | .noChannels => decide (r ≤ 4)
  | .faultSync => decide (r ≤ 6)
  | .faultCfg => r = 0 || r = 4

/-- A cell of the table. -/
def enabledIn (row : TableRow) (s : State) (op : HostOp) : Bool :=
  match op with
  | .reset => true
  | .configure _ _ _ => decide (row = .unconf)
  | .push _ => decide (row = .accepting)
  | .takeRow => decide (row = .rowComplete)
  | .readReg r => regEnabled row s r.toNat

/-- Whether the table enables an operation. `RESET` is enabled in every state (42_row_and_host_ops.md R81). -/
def enabled (op : HostOp) (s : State) : Bool :=
  match tableRow s with
  | some row => enabledIn row s op
  | none => decide (op = .reset)

end Sys2Proof.Machine
end

