-- ==== Sys2Proof/Machine/Signals.lean ====
section
/-! DEFINITION. The signal-level rendering of 10_state.md R24 (informative there; log 14): the output signals as
functions of the state, and what one clock edge does with the input signals. `step` does not go through it. -/

namespace Sys2Proof.Machine

/-- The input signals of 10_state.md R24, less the clock. `out_sel` and `reg_sel` select what `outData` and `regData` show. -/
structure Pins where
  rst : Bool
  cfgValid : Bool
  cfgN : BitVec 8
  cfgFs : F32
  cfgFf : F32
  inValid : Bool
  inWord : Word16
  rowTake : Bool
  deriving DecidableEq, Repr

/-- `in_ready`: `PUSH` is enabled. -/
def inReady (s : State) : Bool := (pushCount s).isSome

/-- `row_valid`. -/
def rowValidOut (s : State) : Bool := s.rowValid

/-- `out_data`, where it is meaningful. -/
def outData (sel : Index) (s : State) : Option F32 := if outReadable s sel then readOut s.out sel else none

/-- `err_index`, where it is meaningful. -/
def errIndexOut (s : State) : Option Index := if s.phase = .faultSync then s.errIndex else none

/-- `err_word`, where it is meaningful. -/
def errWordOut (s : State) : Option Word16 := if s.phase = .faultSync then s.errWord else none

/-- `reg_data`: a combinational read, which changes nothing (42_row_and_host_ops.md R87). -/
def regData (sel : RegNumber) (s : State) : Option (BitVec 32) := readRegister sel s

/-- The operation acted on at an edge: `rst` wins over every other strobe; otherwise the one whose strobe and enabling
condition are both true. The three conditions exclude each other. -/
def edgeOp (p : Pins) (s : State) : Option HostOp :=
  if p.rst then some .reset
  else if p.cfgValid && enabled (.configure p.cfgN p.cfgFs p.cfgFf) s then some (.configure p.cfgN p.cfgFs p.cfgFf)
  else if p.inValid && enabled (.push p.inWord) s then some (.push p.inWord)
  else if p.rowTake && enabled .takeRow s then some .takeRow
  else none

/-- One clock edge: the operation acted on, or nothing (a word that is not accepted stays with the host,
70_reset_and_hazards.md R112). -/
def edge (p : Pins) (s : State) : Host.Outcome State Fault Refusal :=
  match edgeOp p s with
  | some op => perform op s
  | none => .next s

end Sys2Proof.Machine
end

