-- ==== Sys2Proof/Safety.lean ====
section
/-! DEFINITION. What claims are stated in: the invariant of the reachable states (42_row_and_host_ops.md R89), when a
word can be accepted (R84), what "unchanged" means for the block and for the host's side, and the order of binary32
values. -/

namespace Sys2Proof.Machine

/-! ## Shapes of a state -/

/-- `CHANNEL_COUNT` as a number; 0 where it holds NOVAL, which the uses below exclude. -/
abbrev State.count (s : State) : Nat := (s.channelCount.getD 0).toNat

/-- How many entries of `OUT` hold values in `S_RUN`: all of the row once it is complete, else those of the words
already accepted (42_row_and_host_ops.md R89). -/
abbrev State.filled (s : State) : Nat := if s.rowValid then s.count else s.idx.toNat

/-- `S_UNCONF` and `S_FAULT_CFG`: "`IDX = 0`, `ROW_VALID = 0` and every register other than `STATE` and `IDX` holds
NOVAL" (42_row_and_host_ops.md R89). -/
abbrev State.Blank (s : State) : Prop :=
  s.idx = 0 ∧ s.rowValid = false ∧ s.channelCount = none ∧ s.fullScale = none ∧ s.fudge = none ∧
    s.errIndex = none ∧ s.errWord = none ∧ s.out = emptyRow

/-- The configuration registers hold values, the count in range (10_state.md R10). -/
abbrev State.Configured (s : State) : Prop :=
  s.channelCount.isSome = true ∧ s.fullScale.isSome = true ∧ s.fudge.isSome = true ∧ s.count ≤ Config.maxChannels

/-- `S_RUN` (42_row_and_host_ops.md R89): `IDX < CHANNEL_COUNT`, a complete row stands only at `IDX = 0`, and exactly
the first `filled` entries of `OUT` hold values. -/
abbrev State.Running (s : State) : Prop :=
  s.Configured ∧ s.errIndex = none ∧ s.errWord = none ∧
    (s.count = 0 → s.idx = 0 ∧ s.rowValid = false) ∧ (1 ≤ s.count → s.idx.toNat < s.count) ∧
    (s.rowValid = true → s.idx = 0) ∧ ∀ j : Fin 32, (s.out[j].isSome = true ↔ j.val < s.filled)

/-- `S_FAULT_SYNC` (42_row_and_host_ops.md R89, 60_exceptions.md R97): the record holds the index, which is `IDX`, and
a word that does not fit it; the row is gone. -/
abbrev State.Violated (s : State) : Prop :=
  s.Configured ∧ s.idx.toNat < s.count ∧ s.rowValid = false ∧ s.errIndex = some s.idx ∧
    s.errWord.any (fun w => !syncOk s.idx.toNat w) = true ∧ s.out = emptyRow

/-- The invariant of the reachable states (42_row_and_host_ops.md R89). -/
abbrev State.Inv (s : State) : Prop :=
  (s.phase = .unconf ∨ s.phase = .faultCfg → s.Blank) ∧ (s.phase = .run → s.Running) ∧
    (s.phase = .faultSync → s.Violated)

/-- The block accepts a word: `PUSH` is enabled (42_row_and_host_ops.md R84), with these registers. -/
abbrev State.Accepts (s : State) (n : Count) (fs ff : F32) : Prop :=
  s.phase = .run ∧ s.rowValid = false ∧ s.channelCount = some n ∧ 1 ≤ n.toNat ∧
    s.fullScale = some fs ∧ s.fudge = some ff

/-! ## The machine with another `NUMERICS` -/

/-- The machine whose `NUMERICS` is `N` (00_scope.md R8, 41_numerics.md R75); `core` is the one of `binary32`. -/
def coreWith (N : DrawnNumerics) : Host.Core where
  State := State
  Fault := Fault
  Refusal := Refusal
  step := stepWith N
  reset := State.reset

/-! ## What is unchanged -/

/-- The three configuration registers are unchanged (10_state.md R10 to R12). -/
abbrev State.SameConfig (s t : State) : Prop :=
  t.channelCount = s.channelCount ∧ t.fullScale = s.fullScale ∧ t.fudge = s.fudge

/-- The nine items of 10_state.md R9 are unchanged. -/
abbrev State.SameBlock (s t : State) : Prop :=
  t.phase = s.phase ∧ s.SameConfig t ∧ t.idx = s.idx ∧ t.rowValid = s.rowValid ∧
    t.errIndex = s.errIndex ∧ t.errWord = s.errWord ∧ t.out = s.out

/-- A recorded fault stands (60_exceptions.md R100). -/
abbrev State.Faulted (s : State) : Prop := s.phase = .faultSync ∨ s.phase = .faultCfg

/-! ## The order of binary32 values -/

/-- A number that orders the non-NaN binary32 values as their values do, `-0` and `+0` alike (41_numerics.md R63). -/
def F32.order (x : F32) : Int := if F32.sign x then -(F32.magBits x : Int) else F32.magBits x

/-- `K = fmul(FUDGE, FULL_SCALE)` (41_numerics.md R66). -/
def scaleProduct (d : BitVec 23) (fs ff : F32) : F32 := F32.fmul d ff fs

end Sys2Proof.Machine
end

