-- ==== Sys2Proof/Certificates/Slice0/Obligations.lean ====
section
/-! DEFINITION. What is stated about the model, for the provers; OBLIGATIONS.json lists each with its rules. -/

open Sys2Proof Sys2Proof.Machine

/-! ## Words: encoding and decoding -/

/-- Encoding and decoding undo each other: every well-formed instruction is decoded from its own word and from its own
bytes, with every operand bit, and every word is the word of the instruction it decodes to, so that a fault records the
whole pushed word (30_encoding.md R42, R45; 20_memory.md R28). -/
def Obligations.DecodeAndEncodeAgree : Prop :=
  (∀ i : Instr, i.wf = true →
    decodeWord (encode i) = i ∧ ∀ rest : List Byte, decode (encodeBytes i ++ rest) = .ok (i, rest)) ∧
  ∀ w : Word16, encode (decodeWord w) = w

/-- 30_encoding.md R45: `enc` places the code and the sync pair. The spec's own inferences beside the formula: `extract`
and `sync` take them back, every word is the encoding of its own three fields (R45), and the two parts of a code may be
combined by addition or by exclusive or just as well (R44). -/
def Obligations.EncodingPlacesFields : Prop :=
  (∀ (s1 s0 : Bool) (r : Code14),
    (enc s1 s0 r).toNat = r.toNat / 128 * 512 + s1.toNat * 256 + r.toNat % 128 * 2 + s0.toNat ∧
    extract (enc s1 s0 r) = r ∧ (syncOf (enc s1 s0 r)).toNat = s1.toNat * 256 + s0.toNat) ∧
  (∀ w : Word16, enc (w.getLsbD 8) (w.getLsbD 0) (extract w) = w) ∧
  (∀ r : Code14, encode (.first r) = enc true false r ∧ encode (.next r) = enc true true r) ∧
  ∀ w : Word16,
    (extract w).toNat = (((w &&& 0xFE00#16) >>> 2) + ((w &&& 0x00FE#16) >>> 1)).toNat ∧
    (extract w).toNat = (((w &&& 0xFE00#16) >>> 2) ^^^ ((w &&& 0x00FE#16) >>> 1)).toNat

/-- The four rows (mask, match) of 30_encoding.md R42 partition the words (the spec's own inference from R41): a word
is decoded to the kind whose row it matches, and each row's words correspond one to one to the 2^14 = 16,384 sample
codes. With it the truth table the spec infers for the validator over bits 8 and 0 (40_frame_words.md R52). -/
def Obligations.OpcodeMapPartitionsWords : Prop :=
  ∀ w : Word16,
    (w &&& 0x0101#16 = 0x0100#16 ↔ decodeWord w = .first (extract w)) ∧
    (w &&& 0x0101#16 = 0x0101#16 ↔ decodeWord w = .next (extract w)) ∧
    (w &&& 0x0101#16 = 0x0000#16 ↔ decodeWord w = .bad00 (extract w)) ∧
    (w &&& 0x0101#16 = 0x0001#16 ↔ decodeWord w = .bad01 (extract w)) ∧
    (w &&& 0x0101#16 = 0x0100#16 ↔ ∃! r : Code14, encode (.first r) = w) ∧
    (w &&& 0x0101#16 = 0x0101#16 ↔ ∃! r : Code14, encode (.next r) = w) ∧
    (w &&& 0x0101#16 = 0x0000#16 ↔ ∃! r : Code14, encode (.bad00 r) = w) ∧
    (w &&& 0x0101#16 = 0x0001#16 ↔ ∃! r : Code14, encode (.bad01 r) = w) ∧
    ∀ j : Nat, syncOk j w =
      match w.getLsbD 8, w.getLsbD 0 with
      | true, false => decide (j = 0)
      | true, true => decide (0 < j)
      | false, false => false
      | false, true => false

/-- Words of 95_test_vectors.md V1, each written out in hexadecimal there, decode to the kind and code it lists. -/
def Obligations.ListedWordsDecode : Prop :=
  decodeWord 0x0100#16 = .first 0#14 ∧ decodeWord 0xFFFE#16 = .first 16383#14 ∧
  decodeWord 0xABCD#16 = .next 10982#14 ∧ decodeWord 0x1234#16 = .bad00 1178#14 ∧
  decodeWord 0x00FF#16 = .bad01 127#14 ∧ decode [0x21#8, 0x9D#8] = .ok (.next 10000#14, [])

/-- 20_memory.md R28, 30_encoding.md R50 (the spec's own inference): the first byte received is the low one, a word's
two bytes are `{DL, S0}` then `{DH, S1}`, and in the bytes of a legal row only the very first has bit 0 clear. The
words are got back from the bytes (20_memory.md R29). -/
def Obligations.WireBytesOfLegalRow : Prop :=
  (∀ b0 b1 : Byte, (wireWord b0 b1).toNat = b1.toNat * 256 + b0.toNat ∧
    (wireWord b0 b1).extractLsb' 0 8 = b0 ∧ (wireWord b0 b1).extractLsb' 8 8 = b1) ∧
  (∀ w : Word16, wireBytes w =
    [(extract w).extractLsb' 0 7 ++ BitVec.ofBool (w.getLsbD 0),
     (extract w).extractLsb' 7 7 ++ BitVec.ofBool (w.getLsbD 8)]) ∧
  ∀ words : List Word16,
    wireWords (words.flatMap wireBytes) = words ∧
    ((∀ (j : Nat) (w : Word16), words[j]? = some w → syncOk j w = true) →
      ∀ (k : Nat) (b : Byte), (words.flatMap wireBytes)[k]? = some b → b.getLsbD 0 = decide (k ≠ 0))

/-- R53: the sample code is the two data fields brought together, `{w[15:9], w[7:1]}`, below 2^14, for every word; it is
independent of the sync bits (30_encoding.md R44). -/
def Obligations.ExtractRepacksDataBits : Prop :=
  ∀ w : Word16,
    extract w = w.extractLsb' 9 7 ++ w.extractLsb' 1 7 ∧
    (extract w).toNat ≤ 16383 ∧
    (extract w).toNat = (((w &&& 0xFE00#16) >>> 2) ||| ((w &&& 0x00FE#16) >>> 1)).toNat ∧
    ∀ v : Word16, v &&& 0xFEFE#16 = w &&& 0xFEFE#16 → extract v = extract w

/-- R51 and R55: the expected pattern by position; one word through all stages, the check first: a word that fails it
gives the violation and no value, and one that passes gives its value, under any numerics. -/
def Obligations.SyncCheckComesFirst : Prop :=
  (expect 0 = 0x0100#16 ∧ ∀ j : Nat, 0 < j → expect j = 0x0101#16) ∧
  (∀ (j : Nat) (w : Word16), syncOk j w = decide (w &&& 0x0101#16 = expect j)) ∧
  ∀ (N : Numerics) (j : Nat) (w : Word16) (fs ff : F32),
    (w &&& 0x0101#16 ≠ expect j → decodeSample N j w fs ff = .error ⟨j, w⟩) ∧
    (w &&& 0x0101#16 = expect j → decodeSample N j w fs ff = .ok (calibrateWith N (extract w) fs ff))

/-! ## The frame words -/

/-- R56: which words are `FIRST`; at index 0 it stores the sample in `OUT[0]` and advances; at any other index it raises
the violation; the corner values of its code and the rule's example. `d` is the draw of R71, should the value be a NaN. -/
def Obligations.FirstStoresSample : Prop :=
  (∀ (s : State) (n : Count) (fs ff : F32) (r : Code14), s.Accepts n fs ff → s.idx = 0 →
    ∃ (t : State) (d : BitVec 23), exec (.first r) s = .next t ∧
      t.out = writeOut s.out 0 (calibrate d r fs ff) ∧ t.idx = (if n = 1 then 0 else 1) ∧
      t.rowValid = decide (n = 1) ∧ t.phase = .run ∧ s.SameConfig t ∧ t.errIndex = s.errIndex ∧ t.errWord = s.errWord) ∧
  (∀ (s : State) (n : Count) (fs ff : F32) (r : Code14), s.Accepts n fs ff → s.idx ≠ 0 →
    exec (.first r) s = .next { s with
      errIndex := some s.idx, errWord := some (enc true false r), out := emptyRow, phase := .faultSync }) ∧
  ∀ (d : BitVec 23) (fs ff : F32),
    (F32.isNaN (scaleProduct d fs ff) = false → calibrate d 0 fs ff = F32.neg (scaleProduct d fs ff)) ∧
    (F32.isFinite (scaleProduct d fs ff) = true → F32.isZero (calibrate d 8192 fs ff) = true) ∧
    calibrate d 16383 fs ff = F32.fmul d (scaleProduct d fs ff) 0x3F7FF800#32 ∧
    calibrate d 0 0x41200000#32 0x3F800000#32 = 0xC1200000#32 ∧
    ∀ w : Word16, w &&& 0x0101#16 = 0x0100#16 → decodeWord w = .first (extract w) ∧ enc true false (extract w) = w

/-- R57: which words are `NEXT`; at an index above 0 it stores the sample in `OUT[IDX]` and advances; at index 0 it raises
the violation, so it is never legal in a session of one channel; the rule's example. `d` is the draw of R71. -/
def Obligations.NextStoresSample : Prop :=
  (∀ (s : State) (n : Count) (fs ff : F32) (r : Code14), s.Accepts n fs ff → s.idx ≠ 0 →
    ∃ (t : State) (d : BitVec 23), exec (.next r) s = .next t ∧
      t.out = writeOut s.out s.idx (calibrate d r fs ff) ∧
      t.idx = (if s.idx.toNat + 1 = n.toNat then 0 else s.idx + 1) ∧
      t.rowValid = decide (s.idx.toNat + 1 = n.toNat) ∧ t.phase = .run ∧ s.SameConfig t ∧
      t.errIndex = s.errIndex ∧ t.errWord = s.errWord) ∧
  (∀ (s : State) (n : Count) (fs ff : F32) (r : Code14), s.Accepts n fs ff → s.idx = 0 →
    exec (.next r) s = .next { s with
      errIndex := some 0, errWord := some (enc true true r), out := emptyRow, phase := .faultSync }) ∧
  (∀ (s : State) (fs ff : F32) (r : Code14), s.Inv → s.Accepts 1 fs ff →
    ∃ t, exec (.next r) s = .next t ∧ t.phase = .faultSync) ∧
  (∀ w : Word16, w &&& 0x0101#16 = 0x0101#16 → decodeWord w = .next (extract w) ∧ enc true true (extract w) = w) ∧
  ∀ d : BitVec 23, calibrate d 16383 0x41200000#32 0x3F800000#32 = 0x411FFB00#32

/-- R58: `BAD00` raises the violation at every index, with its whole word; the all-zero word is one. -/
def Obligations.Bad00RaisesViolation : Prop :=
  (∀ (s : State) (n : Count) (fs ff : F32) (r : Code14), s.Accepts n fs ff →
    exec (.bad00 r) s = .next { s with
      errIndex := some s.idx, errWord := some (enc false false r), out := emptyRow, phase := .faultSync }) ∧
  (∀ (s : State) (n : Count) (fs ff : F32) (w : Word16), s.Accepts n fs ff → w &&& 0x0101#16 = 0x0000#16 →
    decodeWord w = .bad00 (extract w) ∧ perform (.push w) s = .next { s with
      errIndex := some s.idx, errWord := some w, out := emptyRow, phase := .faultSync }) ∧
  decodeWord 0x0000#16 = .bad00 0

/-- `BAD01` raises the violation at every index, with its whole word (40_frame_words.md R59); a legal `FIRST` word with
its bytes swapped is one, and so faults at the first word of a row (R59's own inference, "a legal `FIRST` word whose two
bytes have been swapped is a `BAD01`"); a swapped `NEXT` word is a `NEXT` word with `DH` and `DL` exchanged. -/
def Obligations.Bad01RaisesViolation : Prop :=
  (∀ (s : State) (n : Count) (fs ff : F32) (r : Code14), s.Accepts n fs ff →
    exec (.bad01 r) s = .next { s with
      errIndex := some s.idx, errWord := some (enc false true r), out := emptyRow, phase := .faultSync }) ∧
  (∀ (s : State) (n : Count) (fs ff : F32) (w : Word16), s.Accepts n fs ff → w &&& 0x0101#16 = 0x0001#16 →
    decodeWord w = .bad01 (extract w) ∧ perform (.push w) s = .next { s with
      errIndex := some s.idx, errWord := some w, out := emptyRow, phase := .faultSync }) ∧
  (∀ (b0 b1 : Byte) (r : Code14), decodeWord (wireWord b0 b1) = .first r →
    decodeWord (wireWord b1 b0) = .bad01 (r.extractLsb' 0 7 ++ r.extractLsb' 7 7) ∧
    syncOk 0 (wireWord b1 b0) = false) ∧
  ∀ (b0 b1 : Byte) (r : Code14), decodeWord (wireWord b0 b1) = .next r →
    decodeWord (wireWord b1 b0) = .next (r.extractLsb' 0 7 ++ r.extractLsb' 7 7)

/-- A word stops, by name, exactly when `PUSH` is not enabled (42_row_and_host_ops.md R84, R89). -/
def Obligations.WordStopsWhenPushNotEnabled : Prop :=
  ∀ (i : Instr) (s : State), s.Inv →
    ((∃ t, exec i s = .next t) ↔
      s.phase = .run ∧ s.rowValid = false ∧ ∃ n, s.channelCount = some n ∧ 1 ≤ n.toNat) ∧
    ((¬ ∃ t, exec i s = .next t) → exec i s = .fault .pushNotEnabled)

/-- The four word kinds together are `PUSH(w)` as R84 writes it, on the word and the expected pattern, under every
`NUMERICS` (00_scope.md R8) and so in the machine, whose `NUMERICS` is the default (log 7). -/
def Obligations.WordKindsAgreeWithPush : Prop :=
  (∀ (N : DrawnNumerics) (w : Word16) (s : State), execWith N (decodeWord w) s = pushWord N w s) ∧
  ∀ (w : Word16) (s : State),
    exec (decodeWord w) s = pushWord binary32 w s ∧ perform (.push w) s = pushWord binary32 w s

/-- R43: a pushed word is legal, and then a sample is stored, exactly when it is a `FIRST` at index 0 or a `NEXT` at
an index above 0; otherwise it raises the violation of its index and itself. -/
def Obligations.LegalityDependsOnPosition : Prop :=
  ∀ (w : Word16) (s : State) (n : Count) (fs ff : F32), s.Accepts n fs ff →
    ((s.idx.toNat = 0 ∧ syncOf w = 0x0100#16 ∨ 0 < s.idx.toNat ∧ syncOf w = 0x0101#16) →
      ∃ t, perform (.push w) s = .next t ∧ t.phase = .run ∧ (readOut t.out s.idx).isSome = true) ∧
    (¬ (s.idx.toNat = 0 ∧ syncOf w = 0x0100#16 ∨ 0 < s.idx.toNat ∧ syncOf w = 0x0101#16) →
      perform (.push w) s = .next { s with
        errIndex := some s.idx, errWord := some w, out := emptyRow, phase := .faultSync })

/-- Frame of all four word kinds. The configuration and the host's lists never change. Where the word is accepted, only
`OUT[IDX]`, `IDX`, `ROW_VALID` (and the draw counter) change; where it raises the violation, only `STATE`, the fault
record and `OUT` change. -/
def Obligations.FrameWordFrame : Prop :=
  ∀ (i : Instr) (s t : State), exec i s = .next t →
    s.SameConfig t ∧ t.pending = s.pending ∧ t.replies = s.replies ∧
    ((t.phase = s.phase ∧ t.errIndex = s.errIndex ∧ t.errWord = s.errWord ∧
        (∀ j : Index, j ≠ s.idx → readOut t.out j = readOut s.out j)) ∨
      (t.phase = .faultSync ∧ t.idx = s.idx ∧ t.rowValid = s.rowValid ∧ t.draws = s.draws ∧
        ∀ j : Index, readOut t.out j = none))

/-- R85: `IDX` moves forward by one and wraps to 0 at `CHANNEL_COUNT`, where the row is complete; it stays below
`CHANNEL_COUNT`. -/
def Obligations.AdvanceWrapsAtChannelCount : Prop :=
  ∀ (i : Instr) (s t : State) (n : Count), s.Inv → s.channelCount = some n → exec i s = .next t → t.phase = .run →
    (s.idx.toNat + 1 = n.toNat → t.idx = 0 ∧ t.rowValid = true) ∧
    (s.idx.toNat + 1 ≠ n.toNat → t.idx.toNat = s.idx.toNat + 1 ∧ t.rowValid = false) ∧
    t.idx.toNat = (s.idx.toNat + 1) % n.toNat ∧ t.idx.toNat < n.toNat

/-- What a word gives depends on the word and the two constants, not on the index, earlier words or earlier rows, up
to which quiet NaN it is; whether it faults depends on the word and on whether `IDX = 0` (10_state.md R23). -/
def Obligations.SampleDependsOnWordAndConstants : Prop :=
  ∀ (i : Instr) (s₁ s₂ t₁ t₂ : State), s₁.fullScale = s₂.fullScale → s₁.fudge = s₂.fudge →
    exec i s₁ = .next t₁ → exec i s₂ = .next t₂ →
    ((s₁.idx = 0 ↔ s₂.idx = 0) → (t₁.phase = .faultSync ↔ t₂.phase = .faultSync)) ∧
    (t₁.phase = .run → t₂.phase = .run →
      ∃ v₁ v₂, readOut t₁.out s₁.idx = some v₁ ∧ readOut t₂.out s₂.idx = some v₂ ∧
        (v₁ = v₂ ∨ F32.classify v₁ = .quietNaN ∧ F32.classify v₂ = .quietNaN))

/-! ## The numerics of the calibration stage -/

/-- The fields of R63 give the class and the value of every pattern: its sign, its magnitude read in units of 2^-149,
and the named extreme values. -/
def Obligations.Binary32FormatIsReadByFields : Prop :=
  (∀ x : F32,
    (F32.sign x = x.getLsbD 31) ∧
    (F32.classify x = .zero ↔ (x.extractLsb' 23 8).toNat = 0 ∧ (x.extractLsb' 0 23).toNat = 0) ∧
    (F32.classify x = .infinite ↔ (x.extractLsb' 23 8).toNat = 255 ∧ (x.extractLsb' 0 23).toNat = 0) ∧
    (F32.isNaN x = true ↔ (x.extractLsb' 23 8).toNat = 255 ∧ (x.extractLsb' 0 23).toNat ≠ 0) ∧
    (F32.classify x = .quietNaN ↔ F32.isNaN x = true ∧ x.getLsbD 22 = true) ∧
    (F32.classify x = .signallingNaN ↔ F32.isNaN x = true ∧ x.getLsbD 22 = false) ∧
    (F32.isInf x = true ↔ (x.extractLsb' 23 8).toNat = 255 ∧ (x.extractLsb' 0 23).toNat = 0) ∧
    (F32.isFinite x = true ↔ (x.extractLsb' 23 8).toNat ≠ 255) ∧
    (F32.isZero x = true ↔ (x.extractLsb' 23 8).toNat = 0 ∧ (x.extractLsb' 0 23).toNat = 0) ∧
    (F32.classify x = .subnormal ↔ (x.extractLsb' 23 8).toNat = 0 ∧ (x.extractLsb' 0 23).toNat ≠ 0) ∧
    (F32.classify x = .normal ↔ 1 ≤ (x.extractLsb' 23 8).toNat ∧ (x.extractLsb' 23 8).toNat ≤ 254) ∧
    (F32.signedUnits x = if x.getLsbD 31 then -(F32.units x : Int) else F32.units x) ∧
    ((x.extractLsb' 23 8).toNat = 0 → F32.units x = (x.extractLsb' 0 23).toNat) ∧
    (1 ≤ (x.extractLsb' 23 8).toNat → (x.extractLsb' 23 8).toNat ≤ 254 →
      F32.units x = (2 ^ 23 + (x.extractLsb' 0 23).toNat) * 2 ^ ((x.extractLsb' 23 8).toNat - 1))) ∧
  F32.units 0x7F7FFFFF#32 = (2 ^ 24 - 1) * 2 ^ 253 ∧ F32.units 0x00800000#32 = 2 ^ 23 ∧ F32.units 0x00000001#32 = 1

/-- `u2f`, `fdiv` by 8192.0 and `fsub` of 1.0 are exact for every code: `t2 = (r - 8192)/8192`, and consecutive codes
differ by 1/8192 (41_numerics.md R68). -/
def Obligations.CentredCodeIsExact : Prop :=
  ∀ (d : BitVec 23) (r : Code14),
    F32.signedUnits ((binary32 d).u2f r.toNat) = r.toNat * F32.unit ∧
    F32.signedUnits ((binary32 d).fdiv ((binary32 d).u2f r.toNat) 0x46000000#32) * 8192 = r.toNat * F32.unit ∧
    F32.isFinite (centredWith (binary32 d) r) = true ∧
    F32.signedUnits (centredWith (binary32 d) r) * 8192 = ((r.toNat : Int) - 8192) * F32.unit ∧
    centredWith (binary32 d) 0 = 0xBF800000#32 ∧ centredWith (binary32 d) 8192 = 0x00000000#32 ∧
    centredWith (binary32 d) 16383 = 0x3F7FF800#32 ∧
    (∀ q : Code14, q.toNat = r.toNat + 1 →
      (F32.signedUnits (centredWith (binary32 d) q) - F32.signedUnits (centredWith (binary32 d) r)) * 8192 = F32.unit)

/-- The integer form (41_numerics.md R69, the spec's own inference from R68): `d = r - 8192` in [-8192, 8191] and then
`d x 2^-13` converted exactly, gives the same bits. -/
def Obligations.IntegerFormEqualsCentredCode : Prop :=
  ∀ (d : BitVec 23) (r : Code14),
    centredInteger r = centredWith (binary32 d) r ∧
    (-8192 ≤ (r.toNat : Int) - 8192 ∧ (r.toNat : Int) - 8192 ≤ 8191) ∧
    F32.signedUnits (centredInteger r) = ((r.toNat : Int) - 8192) * 2 ^ 136 ∧
    (r.toNat = 8192 → centredInteger r = 0x00000000#32)

/-- Multiplication is correctly rounded (41_numerics.md R64, R65): a finite product of finite values is nearest to the
exact product among all finite values, a tie going to an even fraction, and its sign is the exclusive or of the signs. -/
def Obligations.ProductRoundsToNearestEven : Prop :=
  ∀ (d : BitVec 23) (a b : F32), F32.isFinite a = true → F32.isFinite b = true → F32.isFinite (F32.fmul d a b) = true →
    F32.sign (F32.fmul d a b) = (F32.sign a ^^ F32.sign b) ∧
    ∀ c : F32, F32.isFinite c = true →
      ((F32.units a * F32.units b : Int) - F32.units (F32.fmul d a b) * F32.unit).natAbs ≤
        ((F32.units a * F32.units b : Int) - F32.units c * F32.unit).natAbs ∧
      (((F32.units a * F32.units b : Int) - F32.units (F32.fmul d a b) * F32.unit).natAbs =
        ((F32.units a * F32.units b : Int) - F32.units c * F32.unit).natAbs →
        F32.units c ≠ F32.units (F32.fmul d a b) → F32.magBits (F32.fmul d a b) % 2 = 0)

/-- Division and subtraction are correctly rounded too (41_numerics.md R64, R65): a finite result of finite operands is
nearest to the exact quotient or difference, a tie going to an even fraction; a quotient's sign is the exclusive or of
the signs. -/
def Obligations.QuotientAndDifferenceRoundToNearestEven : Prop :=
  ∀ (d : BitVec 23) (a b : F32), F32.isFinite a = true → F32.isFinite b = true →
    (F32.isZero b = false → F32.isFinite (F32.fdiv d a b) = true →
      F32.sign (F32.fdiv d a b) = (F32.sign a ^^ F32.sign b) ∧ ∀ c : F32, F32.isFinite c = true →
      ((F32.units a * F32.unit : Int) - F32.units (F32.fdiv d a b) * F32.units b).natAbs ≤
        ((F32.units a * F32.unit : Int) - F32.units c * F32.units b).natAbs ∧
      (((F32.units a * F32.unit : Int) - F32.units (F32.fdiv d a b) * F32.units b).natAbs =
        ((F32.units a * F32.unit : Int) - F32.units c * F32.units b).natAbs →
        F32.units c ≠ F32.units (F32.fdiv d a b) → F32.magBits (F32.fdiv d a b) % 2 = 0)) ∧
    (F32.isFinite (F32.fsub d a b) = true → ∀ c : F32, F32.isFinite c = true →
      (F32.signedUnits a - F32.signedUnits b - F32.signedUnits (F32.fsub d a b)).natAbs ≤
        (F32.signedUnits a - F32.signedUnits b - F32.signedUnits c).natAbs ∧
      ((F32.signedUnits a - F32.signedUnits b - F32.signedUnits (F32.fsub d a b)).natAbs =
        (F32.signedUnits a - F32.signedUnits b - F32.signedUnits c).natAbs →
        F32.signedUnits c ≠ F32.signedUnits (F32.fsub d a b) → F32.magBits (F32.fsub d a b) % 2 = 0))

/-- N-NEG (41_numerics.md R75): multiplying a non-NaN by -1.0 flips its sign bit and nothing else. -/
def Obligations.MulByMinusOneFlipsSign : Prop :=
  ∀ (d : BitVec 23) (x : F32), F32.isNaN x = false → (binary32 d).fmul x 0xBF800000#32 = x ^^^ 0x80000000#32

/-- N-ONE and N-ZERO (41_numerics.md R75): multiplying a non-NaN by 1.0 leaves it; multiplying a finite value by `+0.0`
gives a zero of its sign. -/
def Obligations.MulByOneAndByZero : Prop :=
  ∀ (d : BitVec 23) (x : F32),
    (F32.isNaN x = false → (binary32 d).fmul x 0x3F800000#32 = x) ∧
    (F32.isFinite x = true → (binary32 d).fmul x 0x00000000#32 = if F32.sign x then 0x80000000#32 else 0x00000000#32)

/-- N-COMM (41_numerics.md R75): multiplication commutes, so both orders of the two constants give the same `K`. The
rule says so for results that are no NaN; that a NaN result has the same bits in both orders rests on the model's own
choice that both take the same draw (log 5). -/
def Obligations.MulCommutes : Prop :=
  ∀ (d : BitVec 23) (x y : F32), (binary32 d).fmul x y = (binary32 d).fmul y x

/-- N-MONO (41_numerics.md R75): multiplication by a finite value above zero keeps the order of non-NaN values. -/
def Obligations.MulByPositiveIsMonotone : Prop :=
  ∀ (d : BitVec 23) (x a b : F32), F32.isFinite x = true → 0 < F32.order x → F32.isNaN a = false → F32.isNaN b = false →
    F32.order a ≤ F32.order b → F32.order ((binary32 d).fmul x a) ≤ F32.order ((binary32 d).fmul x b)

/-- N-NAN (41_numerics.md R75): an operation with a NaN operand, and infinity times zero, give a quiet NaN; which one
it is, is free. -/
def Obligations.NaNOperandsGiveQuietNaN : Prop :=
  ∀ (d : BitVec 23) (a b : F32),
    ((F32.isNaN a = true ∨ F32.isNaN b = true) →
      F32.classify (F32.fmul d a b) = .quietNaN ∧ F32.classify (F32.fdiv d a b) = .quietNaN ∧
        F32.classify (F32.fsub d a b) = .quietNaN) ∧
    ((F32.isInf a = true ∧ F32.isZero b = true ∨ F32.isZero a = true ∧ F32.isInf b = true) →
      F32.classify (F32.fmul d a b) = .quietNaN)

/-- R70: the signs of zeros, of `fmul`, of code 8192 under a finite `K`, and of every code under a zero `K`. -/
def Obligations.ZeroResultsCarrySigns : Prop :=
  (∀ (d : BitVec 23) (a b : F32), F32.isFinite a = true → F32.isFinite b = true →
    (F32.isZero a = true ∨ F32.isZero b = true) →
    F32.fmul d a b = if (F32.sign a ^^ F32.sign b) = true then 0x80000000#32 else 0x00000000#32) ∧
  ∀ (d : BitVec 23) (r : Code14) (fs ff : F32),
    (F32.isFinite (scaleProduct d fs ff) = true →
      calibrate d 8192 fs ff = if F32.sign (scaleProduct d fs ff) then 0x80000000#32 else 0x00000000#32) ∧
    (F32.isZero (scaleProduct d fs ff) = true →
      calibrate d r fs ff =
        if (F32.sign (scaleProduct d fs ff) ^^ decide (r.toNat < 8192)) = true then 0x80000000#32 else 0x00000000#32)

/-- R71: a NaN constant makes `K` and every result a NaN; an infinite `K` makes code 8192 a NaN; an infinite constant
with a zero one makes `K` a NaN. A NaN is delivered like any other value: the word is accepted. -/
def Obligations.NaNConstantsGiveNaNResults : Prop :=
  (∀ (d : BitVec 23) (r : Code14) (fs ff : F32),
    ((F32.isNaN fs = true ∨ F32.isNaN ff = true) →
      F32.isNaN (scaleProduct d fs ff) = true ∧ F32.classify (calibrate d r fs ff) = .quietNaN) ∧
    (F32.isInf (scaleProduct d fs ff) = true → F32.classify (calibrate d 8192 fs ff) = .quietNaN) ∧
    ((F32.isInf fs = true ∧ F32.isZero ff = true ∨ F32.isZero fs = true ∧ F32.isInf ff = true) →
      F32.isNaN (scaleProduct d fs ff) = true ∧ F32.classify (calibrate d r fs ff) = .quietNaN)) ∧
  ∀ (s : State) (n : Count) (fs ff : F32) (w : Word16), s.Accepts n fs ff → syncOk s.idx.toNat w = true →
    (F32.isNaN fs = true ∨ F32.isNaN ff = true) → ∃ t v, perform (.push w) s = .next t ∧ t.phase = .run ∧
      readOut t.out s.idx = some v ∧ F32.classify v = .quietNaN

/-- Overflow and infinite constants (41_numerics.md R72): when `K` is an infinity, what the codes give under an
infinite `K`, and, the spec's own inference, that the second product never overflows under a finite `K`. Nothing
faults: the value is delivered like any other. -/
def Obligations.OverflowGivesInfinity : Prop :=
  (∀ (d : BitVec 23) (fs ff : F32),
    (F32.isFinite fs = true → F32.isFinite ff = true →
      (F32.isInf (scaleProduct d fs ff) = true ↔
        (2 ^ 25 - 1) * 2 ^ 252 * F32.unit ≤ F32.units ff * F32.units fs) ∧
      F32.sign (scaleProduct d fs ff) = (F32.sign ff ^^ F32.sign fs)) ∧
    (F32.isInf fs = true ∧ F32.isZero ff = false ∧ F32.isNaN ff = false ∨
      F32.isInf ff = true ∧ F32.isZero fs = false ∧ F32.isNaN fs = false →
      scaleProduct d fs ff = if (F32.sign ff ^^ F32.sign fs) = true then 0xFF800000#32 else 0x7F800000#32)) ∧
  (∀ (d : BitVec 23) (r : Code14) (fs ff : F32),
    (F32.isInf (scaleProduct d fs ff) = true →
      (r.toNat < 8192 → calibrate d r fs ff = F32.neg (scaleProduct d fs ff)) ∧
      (8192 < r.toNat → calibrate d r fs ff = scaleProduct d fs ff) ∧
      (r.toNat = 8192 → F32.isNaN (calibrate d r fs ff) = true)) ∧
    (F32.isFinite (scaleProduct d fs ff) = true → F32.isFinite (calibrate d r fs ff) = true)) ∧
  ∀ (s : State) (n : Count) (fs ff : F32) (w : Word16), s.Accepts n fs ff → syncOk s.idx.toNat w = true →
    ∃ t, perform (.push w) s = .next t ∧ t.phase = .run ∧
      readOut t.out s.idx = some (calibrate (Config.nanDraw s.draws) (extract w) fs ff)

/-- R73: nothing is flushed. A product of at most half the smallest subnormal is a zero of the product's sign and a larger one is not; below
the normal range the error is at most half a unit; and the four values of the rule's example. -/
def Obligations.SubnormalsUnderflowGradually : Prop :=
  (∀ (d : BitVec 23) (a b : F32), F32.isFinite a = true → F32.isFinite b = true →
    (F32.isZero (F32.fmul d a b) = true ↔ 2 * (F32.units a * F32.units b) ≤ F32.unit) ∧
    F32.sign (F32.fmul d a b) = (F32.sign a ^^ F32.sign b) ∧
    (F32.units a * F32.units b < 2 ^ 23 * F32.unit →
      2 * ((F32.units a * F32.units b : Int) - F32.units (F32.fmul d a b) * F32.unit).natAbs ≤ F32.unit)) ∧
  ∀ d : BitVec 23,
    calibrate d 0 0x00000001#32 0x3F800000#32 = 0x80000001#32 ∧
    calibrate d 1 0x00000001#32 0x3F800000#32 = 0x80000001#32 ∧
    calibrate d 4096 0x00000001#32 0x3F800000#32 = 0x80000000#32 ∧
    calibrate d 16383 0x00000001#32 0x3F800000#32 = 0x00000001#32

/-- The order of the two products (41_numerics.md R66) and the vector the spec infers from it (R76), which tells the
decided order from the other association. -/
def Obligations.ProductOrderIsAsDecided : Prop :=
  (∀ (N : Numerics) (r : Code14) (fs ff : F32),
    calibrateWith N r fs ff =
      N.fmul (N.fmul ff fs) (N.fsub (N.fdiv (N.u2f r.toNat) 0x46000000#32) 0x3F800000#32)) ∧
  ∀ d : BitVec 23,
    scaleProduct d 0x41200000#32 0x3F824DD3#32 = 0x4122E148#32 ∧
    calibrate d 10000 0x41200000#32 0x3F824DD3#32 = 0x400FCAE2#32 ∧
    F32.fmul d 0x3F824DD3#32 (F32.fmul d 0x41200000#32 (centredWith (binary32 d) 10000)) = 0x400FCAE1#32

/-- R60: the three boundary codes, for every pair of constants: `-K`, a zero, and `K x 8191/8192`; `t2` runs from -1 to
8191/8192 in steps of 1/8192. -/
def Obligations.BoundaryCodes : Prop :=
  ∀ (d : BitVec 23) (fs ff : F32),
    calibrate d 0 fs ff = F32.fmul d (F32.fmul d ff fs) 0xBF800000#32 ∧
    (F32.isNaN (F32.fmul d ff fs) = false → calibrate d 0 fs ff = F32.fmul d ff fs ^^^ 0x80000000#32) ∧
    calibrate d 8192 fs ff = F32.fmul d (F32.fmul d ff fs) 0x00000000#32 ∧
    (F32.isFinite (F32.fmul d ff fs) = true → F32.isZero (calibrate d 8192 fs ff) = true) ∧
    calibrate d 16383 fs ff = F32.fmul d (F32.fmul d ff fs) 0x3F7FF800#32 ∧
    ∀ r : Code14, F32.signedUnits (centredWith (binary32 d) r) * 8192 = ((r.toNat : Int) - 8192) * F32.unit

/-- Range, order and symmetry of the results under a finite `K` (40_frame_words.md R62): non-decreasing in the code for
`K > 0`, non-increasing for `K < 0`, of the right sign, never beyond `|K|`, and opposite about mid-scale. -/
def Obligations.CalibrationRangeAndOrder : Prop :=
  ∀ (d : BitVec 23) (fs ff : F32), F32.isFinite (scaleProduct d fs ff) = true →
    (∀ q r : Code14, q.toNat ≤ r.toNat →
      (0 < F32.order (scaleProduct d fs ff) →
        F32.order (calibrate d q fs ff) ≤ F32.order (calibrate d r fs ff)) ∧
      (F32.order (scaleProduct d fs ff) < 0 →
        F32.order (calibrate d r fs ff) ≤ F32.order (calibrate d q fs ff))) ∧
    (∀ r : Code14,
      F32.magBits (calibrate d r fs ff) ≤ F32.magBits (scaleProduct d fs ff) ∧
      (0 < F32.order (scaleProduct d fs ff) → r.toNat < 8192 → F32.order (calibrate d r fs ff) ≤ 0) ∧
      (0 < F32.order (scaleProduct d fs ff) → 8192 ≤ r.toNat → 0 ≤ F32.order (calibrate d r fs ff))) ∧
    ∀ q r : Code14, q.toNat + r.toNat = 16384 → q ≠ 8192 → calibrate d q fs ff = F32.neg (calibrate d r fs ff)

/-- For `|K|` a finite number of at least 2^-102, all 16,384 results are distinct (40_frame_words.md R62). -/
def Obligations.CalibrationIsInjective : Prop :=
  ∀ (d : BitVec 23) (fs ff : F32), F32.isFinite (scaleProduct d fs ff) = true →
    2 ^ 47 ≤ F32.units (scaleProduct d fs ff) →
    ∀ q r : Code14, calibrate d q fs ff = calibrate d r fs ff → q = r

/-! ## The row function -/

/-- R77, the whole meaning of `decode_row`: all values, each from its own word, when every
word fits its position; else the violation of the least position that does not fit, and its word. So under every
`NUMERICS`. -/
def Obligations.RowFunctionMeaning : Prop :=
  ∀ (N : DrawnNumerics) (d n : Nat) (words : List Word16) (fs ff : F32), rowWf words n = true →
    ((∀ (j : Nat) (w : Word16), words[j]? = some w → syncOk j w = true) →
      ∃ out, decodeRow N d words n fs ff = some (.ok out) ∧ out.length = n ∧
        ∀ (j : Nat) (w : Word16), words[j]? = some w →
          ∃ e : BitVec 23, out[j]? = some (calibrateWith (N e) (extract w) fs ff)) ∧
    ∀ (j : Nat) (w : Word16), words[j]? = some w → syncOk j w = false →
      (∀ (i : Nat) (v : Word16), i < j → words[i]? = some v → syncOk i v = true) →
      decodeRow N d words n fs ff = some (.error ⟨j, w⟩)

/-- 42_row_and_host_ops.md R78: outside its domain the row function has no result; the empty row gives the empty list (the
spec's own inference from the quantifier); a row of one word is
one `FIRST` word. -/
def Obligations.RowFunctionDomain : Prop :=
  (∀ (N : DrawnNumerics) (d n : Nat) (words : List Word16) (fs ff : F32),
    decodeRow N d words n fs ff = none ↔ words.length ≠ n ∨ 32 < n) ∧
  (∀ (N : DrawnNumerics) (d : Nat) (fs ff : F32), decodeRow N d [] 0 fs ff = some (.ok [])) ∧
  ∀ (N : DrawnNumerics) (d : Nat) (w : Word16) (fs ff : F32),
    (∃ v, decodeRow N d [w] 1 fs ff = some (.ok [v])) ↔ ∃ r, decodeWord w = .first r

/-- The row as a vector (42_row_and_host_ops.md R80): all lanes at once, with the error of the lowest faulting lane, is
the row function, under every `NUMERICS`. The rule claims it up to which NaN a lane gives; that a NaN has the same bits
rests on the model's own choice that word `j` takes draw `d + j` in both (log 16). -/
def Obligations.LanesAgreeWithRow : Prop :=
  ∀ (N : DrawnNumerics) (d n : Nat) (words : List Word16) (fs ff : F32), rowWf words n = true →
    decodeRow N d words n fs ff = some (decodeLanes N d words fs ff)

/-- Pushing a row that decodes (42_row_and_host_ops.md R88 (a)): every push has a step, the row stands complete with
the row function's values, and the `TAKE_ROW` after it returns exactly them and leaves the block as it was before. So
for the machine of every `NUMERICS`. -/
def Obligations.PushedRowIsDecodedRow : Prop :=
  ∀ (N : DrawnNumerics) (s : State) (words : List Word16) (rest : List HostOp) (n : Count) (fs ff : F32) (out : List F32),
    s.Inv → s.Accepts n fs ff → s.idx = 0 → s.pending = words.map .push ++ rest →
    decodeRow N s.draws words n.toNat fs ff = some (.ok out) →
    ∃ t : State, (coreWith N).run n.toNat s = .next t ∧ t.phase = .run ∧ t.idx = 0 ∧ t.rowValid = true ∧ t.pending = rest ∧
      t.replies = s.replies ∧ (∀ j : Index, j.toNat < n.toNat → readOut t.out j = out[j.toNat]?) ∧
      perform .takeRow t = .next { s with
        pending := rest, replies := s.replies ++ [.row out], draws := s.draws + n.toNat }

/-- Pushing a row that does not decode (42_row_and_host_ops.md R88 (b)): the pushes up to the first bad word have a
step, the record is the row function's error, no value is kept, and no further push has a step. So for the machine of
every `NUMERICS`. -/
def Obligations.PushedRowFaultsAsDecodedRow : Prop :=
  ∀ (N : DrawnNumerics) (s : State) (words : List Word16) (rest : List HostOp) (n : Count) (fs ff : F32) (e : SyncBitViolation),
    s.Inv → s.Accepts n fs ff → s.idx = 0 → s.pending = words.map .push ++ rest →
    decodeRow N s.draws words n.toNat fs ff = some (.error e) →
    ∃ t : State, (coreWith N).run (e.index + 1) s = .next t ∧ t.phase = .faultSync ∧ t.errWord = some e.word ∧
      t.errIndex = some t.idx ∧ t.idx.toNat = e.index ∧ words[e.index]? = some e.word ∧ t.rowValid = false ∧
      (∀ j : Index, readOut t.out j = none) ∧ s.SameConfig t ∧ t.replies = s.replies ∧
      ∀ w : Word16, performOn (execWith N) (.push w) t = .fault .pushNotEnabled

/-- A stream of rows (42_row_and_host_ops.md R90): consecutive legal rows, each with its `TAKE_ROW`, are delivered whole
and in arrival order, each as the row function of its own words, and the block is left as before. So for the machine
of every `NUMERICS`. -/
def Obligations.StreamOfRowsIsDeliveredInOrder : Prop :=
  ∀ (N : DrawnNumerics) (rows : List (List Word16)) (s : State) (rest : List HostOp) (n : Count) (fs ff : F32),
    s.Inv → s.Accepts n fs ff → s.idx = 0 →
    s.pending = rows.flatMap (fun row => row.map .push ++ [.takeRow]) ++ rest →
    (∀ row ∈ rows, rowWf row n.toNat = true ∧
      ∀ (j : Nat) (w : Word16), row[j]? = some w → syncOk j w = true) →
    ∃ (t : State) (outs : List (List F32)), (coreWith N).run (rows.length * (n.toNat + 1)) s = .next t ∧
      s.SameBlock t ∧ t.pending = rest ∧ t.replies = s.replies ++ outs.map .row ∧ outs.length = rows.length ∧
      ∀ (k : Nat) (row : List Word16), rows[k]? = some row → ∃ out, outs[k]? = some out ∧
        decodeRow N (s.draws + k * n.toNat) row n.toNat fs ff = some (.ok out)

/-- A wrong channel count (70_reset_and_hazards.md R107): on a legal aligned stream of a device with `c` channels, a
block configured for more faults at word `c` of the first row, and a block configured for fewer delivers one truncated
row, the values of the first `n` words, and faults at the first word after it. So for the machine of every `NUMERICS`. -/
def Obligations.WrongChannelCountFaultPosition : Prop :=
  ∀ (N : DrawnNumerics) (s : State) (words : List Word16) (n : Count) (fs ff : F32) (c : Nat),
    s.Inv → s.Accepts n fs ff → s.idx = 0 → 1 ≤ c → c ≤ 32 →
    (∀ (p : Nat) (w : Word16), words[p]? = some w → syncOk (p % c) w = true) →
    (c < n.toNat → ∀ (w : Word16) (rest : List HostOp), words[c]? = some w →
      s.pending = (words.take (c + 1)).map .push ++ rest →
      ∃ t : State, (coreWith N).run (c + 1) s = .next t ∧ t.phase = .faultSync ∧ t.idx.toNat = c ∧ t.errIndex = some t.idx ∧
        t.errWord = some w ∧ t.replies = s.replies) ∧
    (n.toNat < c → ∀ (w : Word16) (rest : List HostOp), words[n.toNat]? = some w →
      s.pending = (words.take n.toNat).map .push ++ .takeRow :: .push w :: rest →
      ∃ (t : State) (out : List F32), (coreWith N).run (n.toNat + 2) s = .next t ∧ t.phase = .faultSync ∧ t.idx = 0 ∧
        t.errIndex = some 0 ∧ t.errWord = some w ∧ out.length = n.toNat ∧
        decodeRow N s.draws (words.take n.toNat) n.toNat fs ff = some (.ok out) ∧ t.replies = s.replies ++ [.row out])

/-- A slipped stream (20_memory.md R31): in a legal row of at least two words, the word made one byte late, and every
word after the first, fail the check at index 0; between rows of one channel the word made one byte late fails it too. -/
def Obligations.SlippedStreamFaultsAtIndexZero : Prop :=
  (∀ (words : List Word16) (b0 b1 b2 : Byte) (tail : List Byte),
    (∀ (j : Nat) (w : Word16), words[j]? = some w → syncOk j w = true) →
    words.flatMap wireBytes = b0 :: b1 :: b2 :: tail →
    syncOk 0 (wireWord b1 b2) = false ∧
    ∀ (k : Nat) (w : Word16), 0 < k → words[k]? = some w → syncOk 0 w = false) ∧
  ∀ v w : Word16, syncOk 0 v = true → syncOk 0 w = true →
    syncOk 0 (wireWord (v.extractLsb' 8 8) (w.extractLsb' 0 8)) = false

/-! ## The host operations -/

/-- R81 and R105: `RESET` is always enabled and gives the reset table in every state, read back as R105 lists it; it
is the only way out of a fault state; after it nothing but `CONFIGURE` changes the block. -/
def Obligations.ResetGivesResetState : Prop :=
  ∀ s : State, ∃ t, perform .reset s = .next t ∧ t.phase = .unconf ∧ t.idx = 0 ∧ t.rowValid = false ∧
    t.channelCount = none ∧ t.fullScale = none ∧ t.fudge = none ∧ t.errIndex = none ∧ t.errWord = none ∧
    (∀ j : Index, readOut t.out j = none) ∧ statusWord t = 0x00000000#32 ∧ faultLevel t = false ∧
    inReady t = false ∧ rowValidOut t = false ∧ perform .reset t = .next t ∧
    (∀ (op : HostOp) (u : State), perform op t = .next u → (∃ n fs ff, op = .configure n fs ff) ∨ t.SameBlock u) ∧
    (s.Faulted → ∀ (op : HostOp) (u : State), op ≠ .reset → perform op s = .next u → u.Faulted)

/-- R82 and R83: `CONFIGURE` is enabled in `S_UNCONF` only; a count of at most 32 is latched with the two constants,
whatever they are; a larger one raises `ConfigurationOutOfRange`; with a count of 0 neither `PUSH` nor `TAKE_ROW` is
enabled and nothing but `RESET` changes the block. -/
def Obligations.ConfigureLatchesOnce : Prop :=
  (∀ (s : State) (n : BitVec 8) (fs ff : F32), s.phase = .unconf → n.toNat ≤ 32 →
    ∃ m : Count, m.toNat = n.toNat ∧ perform (.configure n fs ff) s = .next { s with
      channelCount := some m, fullScale := some fs, fudge := some ff, phase := .run }) ∧
  (∀ (s : State) (n : BitVec 8) (fs ff : F32), s.phase = .unconf → 32 < n.toNat →
    perform (.configure n fs ff) s = .next { s with phase := .faultCfg }) ∧
  (∀ (s : State) (n : BitVec 8) (fs ff : F32), s.phase ≠ .unconf →
    perform (.configure n fs ff) s = .fault .configureNotEnabled) ∧
  ∀ s : State, s.Inv → s.phase = .run → s.channelCount = some 0 →
    (∀ w : Word16, perform (.push w) s = .fault .pushNotEnabled) ∧
    perform .takeRow s = .fault .takeRowNotEnabled ∧
    ∀ (op : HostOp) (t : State), op ≠ .reset → perform op s = .next t → s.SameBlock t

/-- `TAKE_ROW` is enabled with a complete row only; it returns `OUT[0]` to `OUT[CHANNEL_COUNT - 1]` in order, clears
`ROW_VALID` and empties the buffer, and changes nothing else (42_row_and_host_ops.md R86). That results are kept in a list
of the host's is the model's choice (log 1). -/
def Obligations.TakeRowHandsOverRow : Prop :=
  (∀ (s : State) (n : Count), s.Inv → s.phase = .run → s.rowValid = true → s.channelCount = some n →
    ∃ vs : List F32, vs.length = n.toNat ∧ (∀ j : Index, j.toNat < n.toNat → readOut s.out j = vs[j.toNat]?) ∧
      perform .takeRow s = .next { s with
        rowValid := false, out := emptyRow, replies := s.replies ++ [.row vs] }) ∧
  ∀ s : State, ¬ (s.phase = .run ∧ s.rowValid = true) → perform .takeRow s = .fault .takeRowNotEnabled

/-- What `READ_REG` returns for every register number, where it is readable, and that it changes nothing but what the host
has received; everywhere else it is refused (10_state.md R21, R22; 42_row_and_host_ops.md R87). The list of results is the
model's choice (log 1). -/
def Obligations.ReadRegFollowsTable : Prop :=
  ∀ s : State, s.Inv →
    (∀ (r : RegNumber) (v : BitVec 32), readRegister r s = some v →
      perform (.readReg r) s = .next { s with replies := s.replies ++ [.register r v] }) ∧
    (∀ r : RegNumber, readRegister r s = none → perform (.readReg r) s = .refused (.registerNotReadable r)) ∧
    (∃ v, readRegister 0 s = some v ∧ v.extractLsb' 0 2 = s.phase.code ∧ v.getLsbD 2 = s.rowValid ∧
      v.extractLsb' 3 29 = 0) ∧
    readRegister 0 State.reset = some 0x00000000#32 ∧
    readRegister 1 s = (if s.phase = .run ∨ s.phase = .faultSync then s.channelCount.map (·.setWidth 32) else none) ∧
    readRegister 2 s = (if s.phase = .run ∨ s.phase = .faultSync then s.fullScale else none) ∧
    readRegister 3 s = (if s.phase = .run ∨ s.phase = .faultSync then s.fudge else none) ∧
    readRegister 4 s = some (s.idx.setWidth 32) ∧
    readRegister 5 s = (if s.phase = .faultSync then s.errIndex.map (·.setWidth 32) else none) ∧
    readRegister 6 s = (if s.phase = .faultSync then s.errWord.map (·.setWidth 32) else none) ∧
    (∀ r : RegNumber, 7 ≤ r.toNat → r.toNat ≤ 31 → readRegister r s = none) ∧
    (∀ (r : RegNumber) (j : Index), r.toNat = 32 + j.toNat →
      readRegister r s =
        if s.phase = .run ∧ s.rowValid = true ∧ ∃ n, s.channelCount = some n ∧ j.toNat < n.toNat
        then readOut s.out j else none) ∧
    (s.phase = .run ∨ s.phase = .faultSync →
      ∃ a b c, readRegister 1 s = some a ∧ readRegister 2 s = some b ∧ readRegister 3 s = some c) ∧
    (s.phase = .faultSync → ∃ a b, readRegister 5 s = some a ∧ readRegister 6 s = some b) ∧
    ∀ (r : RegNumber) (j : Index) (n : Count), r.toNat = 32 + j.toNat → s.phase = .run → s.rowValid = true →
      s.channelCount = some n → j.toNat < n.toNat → ∃ v, readRegister r s = some v

/-- The enabledness table (42_row_and_host_ops.md R89): an operation has a step exactly where the table says so. -/
def Obligations.EnabledExactlyAsTable : Prop :=
  ∀ (op : HostOp) (s : State), s.Inv → ((∃ t, perform op s = .next t) ↔ enabled op s = true)

/-- Frame of the host operations: none touches the list of what the host will issue; only a result adds to what the
host has received; only words take draws; a register read leaves all nine items as they were (20_memory.md R32). -/
def Obligations.HostOperationFrame : Prop :=
  ∀ (op : HostOp) (s t : State), perform op s = .next t →
    t.pending = s.pending ∧
    ((∀ w, op ≠ .push w) → t.draws = s.draws) ∧
    (op ≠ .takeRow → (∀ r, op ≠ .readReg r) → t.replies = s.replies) ∧
    (∀ r, op = .readReg r → s.SameBlock t ∧ ∃ v, t.replies = s.replies ++ [.register r v]) ∧
    (op = .takeRow → s.SameConfig t ∧ t.phase = s.phase ∧ t.idx = s.idx ∧ t.errIndex = s.errIndex ∧
      t.errWord = s.errWord)

/-- R91, R92 and R97: only a word that does not fit its position and a count above 32 enter a fault state, each of them
does, and the entry is the whole of what they do; after it neither a word nor a configuration has a step. -/
def Obligations.OnlyTwoCausesOfFault : Prop :=
  (∀ (op : HostOp) (s t : State), s.Inv → perform op s = .next t → faultLevel s = false → faultLevel t = true →
    ((∃ w, op = .push w ∧ w &&& 0x0101#16 ≠ expect s.idx.toNat ∧
      t = { s with errIndex := some s.idx, errWord := some w, out := emptyRow, phase := .faultSync } ∧
      t.rowValid = false ∧ t.phase.code = 2) ∨
    (∃ n fs ff, op = .configure n fs ff ∧ 32 < n.toNat ∧ t = { s with phase := .faultCfg } ∧ t.phase.code = 3)) ∧
    (∀ w, perform (.push w) t = .fault .pushNotEnabled) ∧
    ∀ n fs ff, perform (.configure n fs ff) t = .fault .configureNotEnabled) ∧
  (∀ (s : State) (n : Count) (fs ff : F32) (w : Word16), s.Accepts n fs ff → w &&& 0x0101#16 ≠ expect s.idx.toNat →
    perform (.push w) s = .next { s with
      errIndex := some s.idx, errWord := some w, out := emptyRow, phase := .faultSync }) ∧
  ∀ (s : State) (n : BitVec 8) (fs ff : F32), s.phase = .unconf → 32 < n.toNat →
    perform (.configure n fs ff) s = .next { s with phase := .faultCfg }

/-- A fault is left by `RESET` only, which discards the configuration (60_exceptions.md R99). That in a fault state no
other operation changes any of the nine items, and that neither a word nor a configuration has a step, is the spec's own
inference from its enabledness table (60_exceptions.md R100). -/
def Obligations.FaultsLastUntilReset : Prop :=
  ∀ (s : State), s.Faulted →
    (∀ (op : HostOp) (t : State), op ≠ .reset → perform op s = .next t → s.SameBlock t) ∧
    (∀ w, perform (.push w) s = .fault .pushNotEnabled) ∧
    (∀ n fs ff, perform (.configure n fs ff) s = .fault .configureNotEnabled) ∧
    ∃ t, perform .reset s = .next t ∧ t.phase = .unconf ∧ t.channelCount = none ∧ t.fullScale = none ∧ t.fudge = none

/-- R110: the configuration is fixed for the session. Once out of `S_UNCONF` no operation but `RESET` changes it, and a
second `CONFIGURE` is not enabled; every word accepted is computed with these constants. -/
def Obligations.ConfigurationIsFixedForSession : Prop :=
  (∀ (op : HostOp) (s t : State), s.phase ≠ .unconf → op ≠ .reset → perform op s = .next t →
    s.SameConfig t ∧ t.phase ≠ .unconf) ∧
  (∀ (s : State) (n : BitVec 8) (fs ff : F32), s.phase ≠ .unconf →
    perform (.configure n fs ff) s = .fault .configureNotEnabled) ∧
  ∀ (s t : State) (n : Count) (fs ff : F32) (w : Word16), s.channelCount = some n → s.fullScale = some fs →
    s.fudge = some ff → perform (.push w) s = .next t → t.phase = .run →
    (∃ d : BitVec 23, readOut t.out s.idx = some (calibrate d (extract w) fs ff)) ∧
    (t.rowValid = true ↔ s.idx.toNat + 1 = n.toNat)

/-- R34 and R112, back-pressure: while a row stands complete no word has a step, so that the word stays with the host;
`TAKE_ROW` has one, and nothing but `TAKE_ROW` and `RESET` changes the block. -/
def Obligations.CompleteRowHoldsBackWords : Prop :=
  ∀ (s : State), s.Inv → s.rowValid = true →
    (∀ i : Instr, exec i s = .fault .pushNotEnabled) ∧ inReady s = false ∧
    (∃ t, perform .takeRow s = .next t ∧ ∀ w : Word16, enabled (.push w) t = true) ∧
    ∀ (op : HostOp) (t : State), perform op s = .next t → op ≠ .takeRow → op ≠ .reset → s.SameBlock t

/-! ## The whole machine -/

/-- A step runs the instruction the next word decodes to, on the state with that word taken from the host's list. -/
def Obligations.StepRunsDecodedWord : Prop :=
  ∀ (s : State) (b0 b1 : Byte) (i : Instr) (rest : List HostOp),
    s.pending = .push (wireWord b0 b1) :: rest → decode [b0, b1] = .ok (i, []) → i.wf = true →
    step s = exec i { s with pending := rest }

/-- A step performs the host's next operation and takes it from the list; without one the block waits. So under every
`NUMERICS`, and the machine is the one whose `NUMERICS` is the default (00_scope.md R8; log 7). -/
def Obligations.StepPerformsNextOperation : Prop :=
  (∀ (s : State) (op : HostOp) (rest : List HostOp), s.pending = op :: rest →
    step s = perform op { s with pending := rest } ∧
    ∀ N : DrawnNumerics, stepWith N s = performOn (execWith N) op { s with pending := rest }) ∧
  (∀ s : State, s.pending = [] → step s = .fault .noOperationPending ∧
    ∀ N : DrawnNumerics, stepWith N s = .fault .noOperationPending) ∧
  (∀ s : State, step s = stepWith binary32 s) ∧ core = coreWith binary32

/-- The invariant of the reachable states holds after reset (42_row_and_host_ops.md R89, 70_reset_and_hazards.md R105). -/
def Obligations.ResetStateMeetsInvariant : Prop := State.reset.Inv

/-- Every step keeps the invariant of the reachable states (42_row_and_host_ops.md R89), from every state that meets
it, and so does every step under another `NUMERICS`. -/
def Obligations.EveryStepKeepsInvariant : Prop :=
  (∀ s t : State, s.Inv → step s = .next t → t.Inv) ∧
  ∀ (N : DrawnNumerics) (s t : State), s.Inv → stepWith N s = .next t → t.Inv

/-- A host that issues only what the table enables is never stopped (42_row_and_host_ops.md R89): under the invariant a
step with an enabled operation answers a next state, and a word that is enabled never ends without one. -/
def Obligations.EnabledStepNeverStops : Prop :=
  ∀ (s : State) (op : HostOp) (rest : List HostOp), s.Inv → s.pending = op :: rest → enabled op s = true →
    ∃ t, step s = .next t ∧ t.Inv ∧ t.pending = rest

/-- The signal rendering (10_state.md R24, 60_exceptions.md R95, R96). An edge always has a next state; `rst` is `RESET`
and wins over every other strobe; with `rst` low, a strobe whose enabling condition is true is its operation, at most one
is, and with none the state stays. Then the outputs: `fault` is up in the fault states only, `in_ready` says that a word
is accepted, and the data outputs show what they are said to show where they are meaningful. -/
def Obligations.ClockEdgeRendersOperations : Prop :=
  ∀ (p : Pins) (s : State), s.Inv →
    (∃ t, edge p s = .next t ∧ t.Inv) ∧
    (p.rst = true → edge p s = perform .reset s ∧ edge p s = .next (resetBlock s)) ∧
    (p.rst = false →
      (p.cfgValid = true → s.phase = .unconf → edge p s = perform (.configure p.cfgN p.cfgFs p.cfgFf) s) ∧
      (p.inValid = true → inReady s = true → edge p s = perform (.push p.inWord) s) ∧
      (p.rowTake = true → rowValidOut s = true → edge p s = perform .takeRow s) ∧
      (¬ (p.cfgValid = true ∧ s.phase = .unconf) → ¬ (p.inValid = true ∧ inReady s = true) →
        ¬ (p.rowTake = true ∧ rowValidOut s = true) → edge p s = .next s)) ∧
    (∀ op op' : HostOp, (∃ w, op = .push w) ∨ (∃ n fs ff, op = .configure n fs ff) ∨ op = .takeRow →
      (∃ w, op' = .push w) ∨ (∃ n fs ff, op' = .configure n fs ff) ∨ op' = .takeRow →
      enabled op s = true → enabled op' s = true →
      ((∃ w, op = .push w) ↔ (∃ w, op' = .push w)) ∧ (op = .takeRow ↔ op' = .takeRow)) ∧
    (faultLevel s = true ↔ s.Faulted) ∧
    (inReady s = true ↔ s.phase = .run ∧ s.rowValid = false ∧ ∃ n, s.channelCount = some n ∧ 1 ≤ n.toNat) ∧
    (inReady s = true ↔ ∀ w, enabled (.push w) s = true) ∧
    rowValidOut s = s.rowValid ∧
    (∀ (sel : Index) (n : Count), rowValidOut s = true → s.channelCount = some n → sel.toNat < n.toNat →
      ∃ v, outData sel s = some v ∧ readOut s.out sel = some v) ∧
    (s.phase = .faultSync → ∃ j w, errIndexOut s = some j ∧ s.errIndex = some j ∧
      errWordOut s = some w ∧ s.errWord = some w) ∧
    ∀ (sel : RegNumber) (v : BitVec 32), regData sel s = some v ↔
      perform (.readReg sel) s = .next { s with replies := s.replies ++ [.register sel v] }

/-- What each written line stands for (30_encoding.md R48), and that a number out of its range stands for nothing; the
decimal reals of the rule's lines are rounded to binary32 (41_numerics.md R67; that the rounding is to nearest is log
15). -/
def Obligations.ListingLinesStandForWords : Prop :=
  (∀ r : Nat, r ≤ 16383 →
    (∃ w, assemble (.first r) = some (.push w) ∧ decodeWord w = .first (BitVec.ofNat 14 r)) ∧
    (∃ w, assemble (.next r) = some (.push w) ∧ decodeWord w = .next (BitVec.ofNat 14 r)) ∧
    (∃ w, assemble (.bad00 r) = some (.push w) ∧ decodeWord w = .bad00 (BitVec.ofNat 14 r)) ∧
    (∃ w, assemble (.bad01 r) = some (.push w) ∧ decodeWord w = .bad01 (BitVec.ofNat 14 r))) ∧
  (∀ r : Nat, 16383 < r → assemble (.first r) = none ∧ assemble (.next r) = none ∧
    assemble (.bad00 r) = none ∧ assemble (.bad01 r) = none) ∧
  (∀ w : Word16, assemble (.word w.toNat) = some (.push w)) ∧
  (∀ w : Nat, 65535 < w → assemble (.word w) = none) ∧
  assemble .reset = some .reset ∧ assemble .takeRow = some .takeRow ∧
  (∀ (n : BitVec 8) (fs ff : F32),
    assemble (.configure n.toNat (.bits fs.toNat) (.bits ff.toNat)) = some (.configure n fs ff)) ∧
  (∀ (n : BitVec 8) (fs ff : RealLit), fs.wf = true → ff.wf = true →
    assemble (.configure n.toNat fs ff) = some (.configure n (realValue fs) (realValue ff))) ∧
  (∀ (neg : Bool) (num places : Nat), (RealLit.decimal neg num places).wf = true) ∧
  (∀ (n : Nat) (fs ff : RealLit), 255 < n → assemble (.configure n fs ff) = none) ∧
  (∀ (n k : Nat) (x : RealLit), 2 ^ 32 ≤ k →
    assemble (.configure n (.bits k) x) = none ∧ assemble (.configure n x (.bits k)) = none) ∧
  (∀ r : RegNumber, assemble (.readReg (.number r.toNat)) = some (.readReg r)) ∧
  (∀ r : Nat, 63 < r → assemble (.readReg (.number r)) = none) ∧
  assemble (.readReg .status) = some (.readReg 0) ∧ assemble (.readReg .channelCount) = some (.readReg 1) ∧
  assemble (.readReg .fullScale) = some (.readReg 2) ∧ assemble (.readReg .fudge) = some (.readReg 3) ∧
  assemble (.readReg .idx) = some (.readReg 4) ∧ assemble (.readReg .errIndex) = some (.readReg 5) ∧
  assemble (.readReg .errWord) = some (.readReg 6) ∧
  (∀ j : Index, ∃ r : RegNumber, r.toNat = 32 + j.toNat ∧ assemble (.readReg (.out j.toNat)) = some (.readReg r)) ∧
  (∀ j : Nat, 31 < j → assemble (.readReg (.out j)) = none) ∧
  realValue (.decimal false 10 0) = 0x41200000#32 ∧ realValue (.decimal false 1018 3) = 0x3F824DD3#32
end

