-- ==== Sys2Proof/Laws/Numerics.lean ====
section
/-! SUPPORT. The small lemmas of the binary32 numerics: patterns and their parts, magnitudes in units, and what rounding
does. -/

namespace Sys2Proof.Machine.F32

/-! ## Patterns -/

theorem magBits_lt (x : F32) : magBits x < 2 ^ 31 := Nat.mod_lt _ (by decide)

theorem toNat_eq (x : F32) : x.toNat = (if sign x then 2 ^ 31 else 0) + magBits x := by
  have hx := x.isLt
  unfold sign magBits
  by_cases h : 2 ^ 31 ≤ x.toNat
  · simp only [h, decide_true, if_true]; omega
  · simp only [h, decide_false, Bool.false_eq_true, if_false]; omega

theorem toNat_pack (s : Bool) (m : Nat) (h : m < 2 ^ 31) : (pack s m).toNat = (if s then 2 ^ 31 else 0) + m := by
  unfold pack
  rw [BitVec.toNat_ofNat, Nat.mod_eq_of_lt]
  split <;> omega

theorem sign_pack (s : Bool) (m : Nat) (h : m < 2 ^ 31) : sign (pack s m) = s := by
  unfold sign
  rw [toNat_pack s m h]
  cases s
  · simpa using h
  · simp

theorem magBits_pack (s : Bool) (m : Nat) (h : m < 2 ^ 31) : magBits (pack s m) = m := by
  unfold magBits
  rw [toNat_pack s m h]
  cases s <;> simp <;> omega

theorem pack_self (x : F32) : pack (sign x) (magBits x) = x := by
  apply BitVec.eq_of_toNat_eq
  rw [toNat_pack _ _ (magBits_lt x), ← toNat_eq]

theorem pack_inj {s t : Bool} {m n : Nat} (hm : m < 2 ^ 31) (hn : n < 2 ^ 31) :
    pack s m = pack t n ↔ s = t ∧ m = n := by
  constructor
  · intro h
    exact ⟨by rw [← sign_pack s m hm, h, sign_pack t n hn], by rw [← magBits_pack s m hm, h, magBits_pack t n hn]⟩
  · rintro ⟨rfl, rfl⟩
    rfl

theorem toNat_neg (x : F32) : (neg x).toNat = (if sign x then 0 else 2 ^ 31) + magBits x := by
  have hm := magBits_lt x
  have key : (neg x).toNat = x.toNat ^^^ 2 ^ 31 := by simp [neg, BitVec.toNat_xor]
  have h0 : 2 ^ 31 + magBits x = 2 ^ 31 ^^^ magBits x := by
    have h1 := Nat.two_pow_add_eq_or_of_lt hm 1
    simp only [Nat.mul_one] at h1
    rw [h1]
    apply Nat.eq_of_testBit_eq
    intro i
    rw [Nat.testBit_or, Nat.testBit_xor, Nat.testBit_two_pow]
    by_cases hi : 31 = i
    · subst hi
      simp [Nat.testBit_lt_two_pow hm]
    · simp [hi]
  rw [key, toNat_eq x]
  cases hs : sign x
  · simp only [Bool.false_eq_true, if_false, Nat.zero_add]
    rw [Nat.xor_comm, h0]
  · simp only [if_true, Nat.zero_add]
    rw [h0, Nat.xor_comm (2 ^ 31), Nat.xor_assoc, Nat.xor_self, Nat.xor_zero]

theorem neg_eq_pack (x : F32) : neg x = pack (!sign x) (magBits x) := by
  apply BitVec.eq_of_toNat_eq
  rw [toNat_neg, toNat_pack _ _ (magBits_lt x)]
  cases sign x <;> rfl

/-! ## Magnitudes in units -/

theorem unitsOfMag_lt {m : Nat} (h : m < 2 ^ 23) : unitsOfMag m = m := if_pos h

theorem unitsOfMag_normal (k f : Nat) (h : f < 2 ^ 23) :
    unitsOfMag ((k + 1) * 2 ^ 23 + f) = (2 ^ 23 + f) * 2 ^ k := by
  have h1 : ¬ (k + 1) * 2 ^ 23 + f < 2 ^ 23 := by omega
  have h2 : ((k + 1) * 2 ^ 23 + f) % 2 ^ 23 = f := by omega
  have h3 : ((k + 1) * 2 ^ 23 + f) / 2 ^ 23 - 1 = k := by omega
  simp only [unitsOfMag, h1, if_false, h2, h3]

/-- A significand of at most 2^24 (a carry out of it included) and an exponent, as magnitude bits. -/
theorem unitsOfMag_scaled (k m : Nat) (hm : m ≤ 2 ^ 24) (hk : k ≠ 0 → 2 ^ 23 ≤ m) :
    unitsOfMag (k * 2 ^ 23 + m) = m * 2 ^ k := by
  by_cases h24 : m = 2 ^ 24
  · have : k * 2 ^ 23 + m = (k + 1 + 1) * 2 ^ 23 + 0 := by omega
    rw [this, unitsOfMag_normal _ _ (by decide), h24, Nat.add_zero, ← pow_add, ← pow_add]
    congr 1
    omega
  · by_cases h23 : m < 2 ^ 23
    · have hk0 : k = 0 := by by_contra hc; exact absurd (hk hc) (by omega)
      rw [hk0, Nat.zero_mul, Nat.zero_add, unitsOfMag_lt h23, pow_zero, Nat.mul_one]
    · have : k * 2 ^ 23 + m = (k + 1) * 2 ^ 23 + (m - 2 ^ 23) := by omega
      rw [this, unitsOfMag_normal _ _ (by omega), Nat.add_sub_of_le (by omega)]

/-- Every magnitude is a significand below 2^24 and an exponent, normalised unless the exponent is least. -/
theorem exists_scaled (c : Nat) : ∃ k m, c = k * 2 ^ 23 + m ∧ m < 2 ^ 24 ∧ (k ≠ 0 → 2 ^ 23 ≤ m) := by
  by_cases h : c < 2 ^ 23
  · exact ⟨0, c, by omega, by omega, fun hk => absurd rfl hk⟩
  · refine ⟨c / 2 ^ 23 - 1, 2 ^ 23 + c % 2 ^ 23, ?_, by omega, fun _ => by omega⟩
    have h1 : 1 ≤ c / 2 ^ 23 := by omega
    obtain ⟨e, he⟩ := Nat.exists_eq_add_of_le h1
    rw [he, Nat.add_sub_cancel_left]
    omega

theorem unitsOfMag_strictMono {a b : Nat} (h : a < b) : unitsOfMag a < unitsOfMag b := by
  obtain ⟨k, m, rfl, hm, hk⟩ := exists_scaled a
  obtain ⟨l, n, rfl, hn, hl⟩ := exists_scaled b
  rw [unitsOfMag_scaled k m hm.le hk, unitsOfMag_scaled l n hn.le hl]
  rcases Nat.lt_trichotomy k l with hkl | rfl | hkl
  · have h1 : m * 2 ^ k < 2 ^ 24 * 2 ^ k := Nat.mul_lt_mul_of_pos_right hm (by positivity)
    have h2 : 2 ^ 23 * 2 ^ l ≤ n * 2 ^ l := Nat.mul_le_mul_right _ (hl (by omega))
    have h3 : 2 ^ 24 * 2 ^ k ≤ 2 ^ 23 * 2 ^ l := by
      rw [← pow_add, ← pow_add]
      exact Nat.pow_le_pow_right (by decide) (by omega)
    omega
  · exact Nat.mul_lt_mul_of_pos_right (by omega) (by positivity)
  · have := hk (by omega)
    omega

theorem unitsOfMag_le_iff {a b : Nat} : unitsOfMag a ≤ unitsOfMag b ↔ a ≤ b := by
  constructor
  · intro h
    by_contra hc
    exact absurd (unitsOfMag_strictMono (Nat.lt_of_not_le hc)) (by omega)
  · intro h
    rcases Nat.lt_or_eq_of_le h with h | rfl
    · exact (unitsOfMag_strictMono h).le
    · exact le_rfl

theorem unitsOfMag_inj {a b : Nat} (h : unitsOfMag a = unitsOfMag b) : a = b :=
  Nat.le_antisymm (unitsOfMag_le_iff.1 h.le) (unitsOfMag_le_iff.1 h.ge)

/-! ## Rounding a quotient to an integer -/

theorem roundDiv_mono {a b d : Nat} (h : a ≤ b) : roundDiv a d ≤ roundDiv b d := by
  unfold roundDiv
  have hq : a / d ≤ b / d := Nat.div_le_div_right h
  rcases Nat.lt_or_eq_of_le hq with hlt | heq
  · split <;> split <;> omega
  · have ha := Nat.div_add_mod a d
    have hb := Nat.div_add_mod b d
    rw [heq] at ha ⊢
    have hr : a % d ≤ b % d := by omega
    by_cases hc : d < 2 * (a % d) ∨ (2 * (a % d) = d ∧ (b / d) % 2 = 1)
    · have hc' : d < 2 * (b % d) ∨ (2 * (b % d) = d ∧ (b / d) % 2 = 1) := by omega
      simp only [hc, hc', if_true, le_refl]
    · simp only [hc, if_false]
      split <;> omega

theorem roundDiv_of_mul (q d : Nat) (hd : 0 < d) : roundDiv (q * d) d = q := by
  have h1 : q * d / d = q := Nat.mul_div_cancel _ hd
  have h2 : q * d % d = 0 := Nat.mul_mod_left _ _
  unfold roundDiv
  rw [h1, h2]
  simp only [Nat.mul_zero, Nat.not_lt_zero, false_or]
  split
  · omega
  · rfl

/-- Rounding lands next to the quotient. -/
theorem roundDiv_bounds (a d : Nat) : a / d ≤ roundDiv a d ∧ roundDiv a d ≤ a / d + 1 := by
  unfold roundDiv
  split <;> omega

/-- The two ways a quotient is rounded: down to the floor, or up from it. -/
theorem roundDiv_cases (a d : Nat) (hd : 0 < d) : ∃ q r, a = d * q + r ∧ r < d ∧
    ((roundDiv a d = q ∧ (2 * r < d ∨ (2 * r = d ∧ q % 2 = 0))) ∨
      (roundDiv a d = q + 1 ∧ (d < 2 * r ∨ (2 * r = d ∧ q % 2 = 1)))) := by
  refine ⟨a / d, a % d, (Nat.div_add_mod a d).symm, Nat.mod_lt a hd, ?_⟩
  unfold roundDiv
  split
  · exact .inr ⟨rfl, by omega⟩
  · exact .inl ⟨rfl, by omega⟩

/-- Rounding is nearest, and goes to even: no integer is closer to `a / d` than the result, and another integer as
close means that the result is even. -/
theorem roundDiv_nearest (a d j : Nat) (hd : 0 < d) :
    ((a : Int) - roundDiv a d * d).natAbs ≤ ((a : Int) - j * d).natAbs ∧
      (((a : Int) - roundDiv a d * d).natAbs = ((a : Int) - j * d).natAbs → j ≠ roundDiv a d → roundDiv a d % 2 = 0) := by
  obtain ⟨q, r, ha, hr, hcase⟩ := roundDiv_cases a d hd
  have haz : (a : Int) = d * q + r := by exact_mod_cast ha
  have hsplit : j ≤ q ∧ (j : Int) * d ≤ q * d ∨ q + 1 ≤ j ∧ ((q : Int) + 1) * d ≤ j * d := by
    rcases Nat.lt_or_ge q j with h | h
    · exact .inr ⟨h, mul_le_mul_of_nonneg_right (by omega) (by omega)⟩
    · exact .inl ⟨h, mul_le_mul_of_nonneg_right (by omega) (by omega)⟩
  have hlt : j < q → (j : Int) * d < q * d := fun h => mul_lt_mul_of_pos_right (by omega) (by omega)
  have hgt : q + 1 < j → ((q : Int) + 1) * d < j * d := fun h => mul_lt_mul_of_pos_right (by omega) (by omega)
  have eq1 : ((q : Int) + 1) * d = q * d + d := by ring
  have eq0 : (d : Int) * q = q * d := by ring
  rw [eq0] at haz
  rw [eq1] at hgt hsplit
  generalize (j : Int) * d = jd at *
  rcases hcase with ⟨he, hc⟩ | ⟨he, hc⟩ <;> rw [he]
  · generalize (q : Int) * d = qd at *
    refine ⟨by omega, fun h hne => ?_⟩
    omega
  · push_cast
    rw [eq1]
    generalize (q : Int) * d = qd at *
    refine ⟨by omega, fun h hne => ?_⟩
    omega

/-! ## Rounding a magnitude -/

/-- The exponent is the one that leaves a significand of 24 bits, or the least one. -/
theorem ulpExp_spec (q : Nat) : q < 2 ^ (24 + ulpExp q) ∧ (ulpExp q ≠ 0 → 2 ^ (23 + ulpExp q) ≤ q) := by
  unfold ulpExp
  constructor
  · have h1 : q < 2 ^ (q.log2 + 1) := Nat.lt_log2_self
    exact lt_of_lt_of_le h1 (Nat.pow_le_pow_right (by decide) (by omega))
  · intro h
    have hq : q ≠ 0 := by
      rintro rfl
      exact h (by decide)
    have h1 : 2 ^ q.log2 ≤ q := Nat.log2_self_le hq
    rwa [show 23 + (q.log2 - 23) = q.log2 by omega]

theorem ulpExp_mono {p q : Nat} (h : p ≤ q) : ulpExp p ≤ ulpExp q := by
  by_contra hc
  have h1 := (ulpExp_spec p).2 (by omega)
  have h2 := (ulpExp_spec q).1
  have h3 : 2 ^ (24 + ulpExp q) ≤ 2 ^ (23 + ulpExp p) := Nat.pow_le_pow_right (by decide) (by omega)
  omega

/-- The rounded magnitude before an overflow is looked at. -/
def rawMag (num den : Nat) : Nat :=
  ulpExp (num / den) * 2 ^ 23 + roundDiv num (den * 2 ^ ulpExp (num / den))

theorem roundMag_eq (num den : Nat) : roundMag num den = min infBits (rawMag num den) := rfl

/-- The rounded significand has at most 24 bits, or is 2^24, and is normalised above the least exponent. -/
theorem significand_bounds (num den : Nat) :
    roundDiv num (den * 2 ^ ulpExp (num / den)) ≤ 2 ^ 24 ∧
      (ulpExp (num / den) ≠ 0 → 2 ^ 23 ≤ roundDiv num (den * 2 ^ ulpExp (num / den))) := by
  have hs := ulpExp_spec (num / den)
  have hb := roundDiv_bounds num (den * 2 ^ ulpExp (num / den))
  rw [← Nat.div_div_eq_div_mul] at hb
  generalize ulpExp (num / den) = k at *
  constructor
  · have : num / den / 2 ^ k < 2 ^ 24 := by
      rw [Nat.div_lt_iff_lt_mul (by positivity), ← pow_add]
      exact hs.1
    omega
  · intro hk
    have : 2 ^ 23 ≤ num / den / 2 ^ k := by
      rw [Nat.le_div_iff_mul_le (by positivity), ← pow_add]
      exact hs.2 hk
    omega

theorem unitsOfMag_rawMag (num den : Nat) :
    unitsOfMag (rawMag num den) =
      roundDiv num (den * 2 ^ ulpExp (num / den)) * 2 ^ ulpExp (num / den) :=
  unitsOfMag_scaled _ _ (significand_bounds num den).1 (significand_bounds num den).2

/-- Rounding keeps the order of exact magnitudes over one denominator. -/
theorem rawMag_mono {a b den : Nat} (h : a ≤ b) : rawMag a den ≤ rawMag b den := by
  have hq : a / den ≤ b / den := Nat.div_le_div_right h
  have hk := ulpExp_mono hq
  have ha := significand_bounds a den
  have hb := significand_bounds b den
  unfold rawMag
  rcases Nat.lt_or_eq_of_le hk with hlt | heq
  · have := hb.2 (by omega)
    have := ha.1
    omega
  · rw [heq]
    exact Nat.add_le_add_left (roundDiv_mono h) _

theorem roundMag_mono {a b den : Nat} (h : a ≤ b) : roundMag a den ≤ roundMag b den :=
  min_le_min_left _ (rawMag_mono h)

theorem roundMag_le (num den : Nat) : roundMag num den ≤ infBits := min_le_left _ _

theorem roundMag_lt (num den : Nat) : roundMag num den < 2 ^ 31 :=
  lt_of_le_of_lt (roundMag_le num den) (by decide)

/-- Rounding a magnitude is nearest among ALL magnitudes and goes to even (41_numerics.md R65). -/
theorem rawMag_nearest (num den c : Nat) (hd : 0 < den) :
    ((num : Int) - unitsOfMag (rawMag num den) * den).natAbs ≤ ((num : Int) - unitsOfMag c * den).natAbs ∧
      (((num : Int) - unitsOfMag (rawMag num den) * den).natAbs = ((num : Int) - unitsOfMag c * den).natAbs →
        unitsOfMag c ≠ unitsOfMag (rawMag num den) → rawMag num den % 2 = 0) := by
  have hu := unitsOfMag_rawMag num den
  have hs := ulpExp_spec (num / den)
  have hraw : rawMag num den =
    ulpExp (num / den) * 2 ^ 23 + roundDiv num (den * 2 ^ ulpExp (num / den)) := rfl
  generalize hB : rawMag num den = B at *
  generalize ulpExp (num / den) = k at *
  have hD : 0 < den * 2 ^ k := by positivity
  obtain ⟨l, m, rfl, hm, hl⟩ := exists_scaled c
  rw [hu, unitsOfMag_scaled l m hm.le hl]
  generalize hM : roundDiv num (den * 2 ^ k) = M at *
  have hpar : B % 2 = M % 2 := by omega
  rw [hpar]
  by_cases hkl : k ≤ l
  · obtain ⟨e, rfl⟩ := Nat.exists_eq_add_of_le hkl
    have h := roundDiv_nearest num (den * 2 ^ k) (m * 2 ^ e) hD
    rw [hM] at h
    have e1 : ((M * 2 ^ k : Nat) : Int) * den = (M : Int) * ((den * 2 ^ k : Nat) : Int) := by push_cast; ring
    have e2 : ((m * 2 ^ (k + e) : Nat) : Int) * den = ((m * 2 ^ e : Nat) : Int) * ((den * 2 ^ k : Nat) : Int) := by
      push_cast; ring
    rw [e1, e2]
    refine ⟨h.1, fun heq hne => h.2 heq ?_⟩
    rintro rfl
    apply hne
    ring
  · have hk := hs.2 (by omega)
    have h := roundDiv_nearest num (den * 2 ^ k) (2 ^ 23) hD
    rw [hM] at h
    have e1 : ((M * 2 ^ k : Nat) : Int) * den = (M : Int) * ((den * 2 ^ k : Nat) : Int) := by push_cast; ring
    have e2 : ((2 ^ 23 : Nat) : Int) * ((den * 2 ^ k : Nat) : Int) = ((2 ^ (23 + k) * den : Nat) : Int) := by
      push_cast; ring
    have h3 : 2 ^ (23 + k) * den ≤ num :=
      le_trans (Nat.mul_le_mul_right _ hk) (Nat.div_mul_le_self num den)
    have h4 : m * 2 ^ l < 2 ^ (23 + k) := by
      calc m * 2 ^ l < 2 ^ 24 * 2 ^ l := Nat.mul_lt_mul_of_pos_right hm (by positivity)
        _ = 2 ^ (24 + l) := (pow_add _ _ _).symm
        _ ≤ 2 ^ (23 + k) := Nat.pow_le_pow_right (by decide) (by omega)
    have h5 : m * 2 ^ l * den < 2 ^ (23 + k) * den := Nat.mul_lt_mul_of_pos_right h4 hd
    have e3 : ((m * 2 ^ l : Nat) : Int) * den = ((m * 2 ^ l * den : Nat) : Int) := by push_cast; ring
    rw [e1, e3]
    rw [e2] at h
    generalize (M : Int) * ((den * 2 ^ k : Nat) : Int) = x at *
    generalize m * 2 ^ l * den = y at *
    generalize 2 ^ (23 + k) * den = z at *
    have := h.1
    constructor
    · omega
    · intro heq
      omega

/-- A magnitude that is an integer number of units, and whose lowest bits under its own exponent are zero, is
representable: rounding gives it exactly. -/
theorem unitsOfMag_rawMag_of_dvd (n den : Nat) (hd : 0 < den) (h : 2 ^ ulpExp n ∣ n) :
    unitsOfMag (rawMag (n * den) den) = n := by
  rw [unitsOfMag_rawMag, Nat.mul_div_cancel _ hd]
  obtain ⟨c, hc⟩ := h
  generalize ulpExp n = k at *
  subst hc
  rw [show 2 ^ k * c * den = c * (den * 2 ^ k) by ring, roundDiv_of_mul _ _ (by positivity)]
  ring

/-- A binary32 magnitude is rounded to itself. -/
theorem rawMag_of_units (c den : Nat) (hd : 0 < den) : rawMag (unitsOfMag c * den) den = c := by
  apply unitsOfMag_inj
  apply unitsOfMag_rawMag_of_dvd _ _ hd
  obtain ⟨k, m, rfl, hm, hk⟩ := exists_scaled c
  rw [unitsOfMag_scaled k m hm.le hk]
  have hle : ulpExp (m * 2 ^ k) ≤ k := by
    by_contra hc
    have h1 := (ulpExp_spec (m * 2 ^ k)).2 (by omega)
    have h2 : m * 2 ^ k < 2 ^ 24 * 2 ^ k := Nat.mul_lt_mul_of_pos_right hm (by positivity)
    rw [← pow_add] at h2
    have h3 : 2 ^ (24 + k) ≤ 2 ^ (23 + ulpExp (m * 2 ^ k)) := Nat.pow_le_pow_right (by decide) (by omega)
    omega
  exact Dvd.dvd.mul_left (pow_dvd_pow 2 hle) m

theorem roundMag_of_units (c den : Nat) (hd : 0 < den) (hc : c ≤ infBits) : roundMag (unitsOfMag c * den) den = c := by
  rw [roundMag_eq, rawMag_of_units c den hd]
  exact min_eq_right hc

/-! ## Classes -/

theorem isNaN_of_isFinite {x : F32} (h : isFinite x = true) : isNaN x = false := by
  simp only [isFinite, isNaN, decide_eq_true_eq, decide_eq_false_iff_not] at *
  omega

theorem isInf_of_isFinite {x : F32} (h : isFinite x = true) : isInf x = false := by
  simp only [isFinite, isInf, decide_eq_true_eq, decide_eq_false_iff_not] at *
  omega

theorem isFinite_pack (s : Bool) (m : Nat) (h : m ≤ infBits) : isFinite (pack s m) = decide (m < infBits) := by
  unfold isFinite
  rw [magBits_pack _ _ (lt_of_le_of_lt h (by decide))]

/-- The magnitude bits of a quiet NaN: all ones down to the quiet bit, then the draw. -/
theorem magBits_quietNaN (d : BitVec 23) : magBits (quietNaN d) = 0x1FF * 2 ^ 22 + (d.extractLsb' 0 22).toNat := by
  have h2 := (d.extractLsb' 0 22).isLt
  unfold magBits
  simp only [quietNaN, BitVec.toNat_append]
  have h9 : (0x1FF#9).toNat < 2 ^ 9 := by decide
  rw [← Nat.shiftLeft_add_eq_or_of_lt h2, ← Nat.shiftLeft_add_eq_or_of_lt h9]
  simp only [Nat.shiftLeft_eq, BitVec.toNat_ofNat]
  omega

theorem isNaN_quietNaN (d : BitVec 23) : isNaN (quietNaN d) = true := by
  simp only [isNaN, magBits_quietNaN, infBits, decide_eq_true_eq]
  omega

theorem classify_quietNaN (d : BitVec 23) : classify (quietNaN d) = .quietNaN := by
  have h2 := (d.extractLsb' 0 22).isLt
  have hm := magBits_quietNaN d
  have he : expField (quietNaN d) = 255 := by
    unfold expField
    omega
  have hf : 2 ^ 22 ≤ fracField (quietNaN d) := by
    unfold fracField
    omega
  have hf0 : fracField (quietNaN d) ≠ 0 := by omega
  simp only [classify, he, hf, hf0, if_true, if_false]

/-! ## Multiplication of finite values -/

theorem unit_pos : 0 < unit := by decide

theorem fmul_finite {d : BitVec 23} {a b : F32} (ha : isFinite a = true) (hb : isFinite b = true) :
    fmul d a b = pack (sign a ^^ sign b) (roundMag (units a * units b) unit) := by
  simp [fmul, isNaN_of_isFinite ha, isNaN_of_isFinite hb, isInf_of_isFinite ha, isInf_of_isFinite hb]

theorem sign_fmul_finite {d : BitVec 23} {a b : F32} (ha : isFinite a = true) (hb : isFinite b = true) :
    sign (fmul d a b) = (sign a ^^ sign b) := by
  rw [fmul_finite ha hb, sign_pack _ _ (roundMag_lt _ _)]

theorem magBits_fmul_finite {d : BitVec 23} {a b : F32} (ha : isFinite a = true) (hb : isFinite b = true) :
    magBits (fmul d a b) = roundMag (units a * units b) unit := by
  rw [fmul_finite ha hb, magBits_pack _ _ (roundMag_lt _ _)]

end Sys2Proof.Machine.F32

namespace Sys2Proof.Machine

/-! ## The centred code -/

theorem ulpExp_code_le (n e : Nat) (h : n < 2 ^ 15) : F32.ulpExp (n * 2 ^ e) ≤ e := by
  by_contra hc
  have h1 := (F32.ulpExp_spec (n * 2 ^ e)).2 (by omega)
  have h2 : n * 2 ^ e < 2 ^ 15 * 2 ^ e := Nat.mul_lt_mul_of_pos_right h (by positivity)
  rw [← pow_add] at h2
  have h3 : 2 ^ (15 + e) ≤ 2 ^ (23 + F32.ulpExp (n * 2 ^ e)) := Nat.pow_le_pow_right (by decide) (by omega)
  omega

/-- An integer of at most 15 bits, scaled by a power of two, is represented exactly. -/
theorem unitsOfMag_rawMag_code (n e den : Nat) (h : n < 2 ^ 15) (hd : 0 < den) :
    F32.unitsOfMag (F32.rawMag (n * 2 ^ e * den) den) = n * 2 ^ e :=
  F32.unitsOfMag_rawMag_of_dvd _ _ hd (Dvd.dvd.mul_left (pow_dvd_pow 2 (ulpExp_code_le n e h)) n)

theorem rawMag_code_lt (n e den : Nat) (h : n < 2 ^ 15) (he : e ≤ 200) (hd : 0 < den) :
    F32.rawMag (n * 2 ^ e * den) den < F32.infBits := by
  by_contra hc
  have h1 := F32.unitsOfMag_le_iff.2 (Nat.le_of_not_lt hc)
  rw [unitsOfMag_rawMag_code n e den h hd] at h1
  have h2 : n * 2 ^ e < 2 ^ 15 * 2 ^ e := Nat.mul_lt_mul_of_pos_right h (by positivity)
  have h3 : 2 ^ 15 * 2 ^ e ≤ 2 ^ 15 * 2 ^ 200 := Nat.mul_le_mul_left _ (Nat.pow_le_pow_right (by decide) he)
  have h4 : 2 ^ 15 * 2 ^ 200 < F32.unitsOfMag F32.infBits := by decide
  omega

theorem roundMag_code (n e den : Nat) (h : n < 2 ^ 15) (he : e ≤ 200) (hd : 0 < den) :
    F32.roundMag (n * 2 ^ e * den) den = F32.rawMag (n * 2 ^ e * den) den := by
  rw [F32.roundMag_eq]
  exact min_eq_right (rawMag_code_lt n e den h he hd).le

/-- A pattern whose magnitude is such an integer: its units, and that it is finite. -/
theorem units_pack_code (s : Bool) (n e den : Nat) (h : n < 2 ^ 15) (he : e ≤ 200) (hd : 0 < den) :
    F32.units (F32.pack s (F32.roundMag (n * 2 ^ e * den) den)) = n * 2 ^ e ∧
      F32.isFinite (F32.pack s (F32.roundMag (n * 2 ^ e * den) den)) = true ∧
      F32.sign (F32.pack s (F32.roundMag (n * 2 ^ e * den) den)) = s := by
  refine ⟨?_, ?_, F32.sign_pack _ _ (F32.roundMag_lt _ _)⟩
  · unfold F32.units
    rw [F32.magBits_pack _ _ (F32.roundMag_lt _ _), roundMag_code n e den h he hd, unitsOfMag_rawMag_code n e den h hd]
  · rw [F32.isFinite_pack _ _ (F32.roundMag_le _ _), roundMag_code n e den h he hd]
    exact decide_eq_true (rawMag_code_lt n e den h he hd)

theorem u2f_code (n : Nat) (h : n < 2 ^ 15) :
    F32.units (F32.u2f n) = n * 2 ^ 149 ∧ F32.isFinite (F32.u2f n) = true ∧ F32.sign (F32.u2f n) = false := by
  have := units_pack_code false n 149 1 h (by decide) (by decide)
  rw [Nat.mul_one] at this
  exact this

theorem fdiv_code (d : BitVec 23) (n : Nat) (h : n < 2 ^ 15) :
    F32.units (F32.fdiv d (F32.u2f n) Config.f8192) = n * 2 ^ 136 ∧
      F32.isFinite (F32.fdiv d (F32.u2f n) Config.f8192) = true ∧
      F32.sign (F32.fdiv d (F32.u2f n) Config.f8192) = false := by
  obtain ⟨hu, hf, hs⟩ := u2f_code n h
  have h8 : F32.units Config.f8192 = 2 ^ 162 := by decide
  have he : F32.fdiv d (F32.u2f n) Config.f8192 = F32.pack false (F32.roundMag (n * 2 ^ 136 * 2 ^ 162) (2 ^ 162)) := by
    have e1 : F32.isNaN Config.f8192 = false := by decide
    have e2 : F32.isInf Config.f8192 = false := by decide
    have e3 : F32.isZero Config.f8192 = false := by decide
    have e4 : F32.sign Config.f8192 = false := by decide
    have e5 : n * 2 ^ 149 * F32.unit = n * 2 ^ 136 * 2 ^ 162 := by
      rw [F32.unit, mul_assoc, mul_assoc, ← pow_add, ← pow_add]
    simp only [F32.fdiv, F32.isNaN_of_isFinite hf, F32.isInf_of_isFinite hf, e1, e2, e3, e4, hs, hu, h8, e5,
      Bool.or_self, Bool.and_false, Bool.false_eq_true, if_false, Bool.xor_self]
  rw [he]
  exact units_pack_code false n 136 (2 ^ 162) h (by decide) (by positivity)

/-- The division and the subtraction of the calibration are exact: the centred code is the integer form, whatever the
draw. -/
theorem centredWith_eq (d : BitVec 23) (r : Code14) : centredWith (binary32 d) r = centredInteger r := by
  have hr : r.toNat < 2 ^ 14 := r.isLt
  obtain ⟨hu, hf, hs⟩ := fdiv_code d r.toNat (by omega)
  change F32.fsub d (F32.fdiv d (F32.u2f r.toNat) Config.f8192) Config.fOne = centredInteger r
  generalize F32.fdiv d (F32.u2f r.toNat) Config.f8192 = t at *
  have e1 : F32.isFinite Config.fOne = true := by decide
  have e2 : F32.signedUnits Config.fOne = 2 ^ 149 := by decide
  have e3 : F32.signedUnits t = r.toNat * 2 ^ 136 := by
    simp only [F32.signedUnits, hs, hu, Bool.false_eq_true, if_false]
    push_cast
    rfl
  have hdiff : F32.signedUnits t - F32.signedUnits Config.fOne = ((r.toNat : Int) - 8192) * 2 ^ 136 := by
    rw [e2, e3]
    ring
  have hz : (0 : Int) < 2 ^ 136 := by positivity
  have hiff : F32.signedUnits t < F32.signedUnits Config.fOne ↔ r.toNat < 8192 := by
    rw [← sub_neg, hdiff]
    constructor
    · intro h
      by_contra hc
      have := mul_nonneg (show (0 : Int) ≤ (r.toNat : Int) - 8192 by omega) hz.le
      omega
    · intro h
      exact mul_neg_of_neg_of_pos (by omega) hz
  have hab : (F32.signedUnits t - F32.signedUnits Config.fOne).natAbs = ((r.toNat : Int) - 8192).natAbs * 2 ^ 136 := by
    rw [hdiff, Int.natAbs_mul]
    rfl
  have heq : F32.signedUnits t = F32.signedUnits Config.fOne ↔ r.toNat = 8192 := by
    rw [← sub_eq_zero, hdiff, mul_eq_zero]
    constructor
    · rintro (h | h)
      · omega
      · exact absurd h hz.ne'
    · intro h
      exact .inl (by omega)
  simp only [F32.fsub, F32.isNaN_of_isFinite hf, F32.isNaN_of_isFinite e1, F32.isInf_of_isFinite hf,
    F32.isInf_of_isFinite e1, heq, hiff, hab, hs, Bool.or_self, Bool.and_self, Bool.and_false, Bool.false_and,
    Bool.false_eq_true, if_false]
  unfold centredInteger
  split
  · rename_i h
    rw [h]
    decide
  · rfl

/-- The centred code as a number: its units, its sign, and that it is finite. -/
theorem centredInteger_spec (r : Code14) :
    F32.units (centredInteger r) = ((r.toNat : Int) - 8192).natAbs * 2 ^ 136 ∧
      F32.isFinite (centredInteger r) = true ∧ F32.sign (centredInteger r) = decide (r.toNat < 8192) := by
  have hr : r.toNat < 2 ^ 14 := r.isLt
  have := units_pack_code (decide (r.toNat < 8192)) (((r.toNat : Int) - 8192).natAbs) 136 1 (by omega) (by decide)
    (by decide)
  rw [Nat.mul_one] at this
  exact this

/-- A word's value is `K` times the centred code. -/
theorem calibrate_eq (d : BitVec 23) (r : Code14) (fs ff : F32) :
    calibrate d r fs ff = F32.fmul d (F32.fmul d ff fs) (centredInteger r) := by
  rw [← centredWith_eq d r]
  rfl

end Sys2Proof.Machine
end

