-- ==== Sys2Proof/Laws/State.lean ====
section
/-! SUPPORT. What each named update of the state does to each field: one lemma per field per update. -/

namespace Sys2Proof.Machine

/-! ## `raiseSyncBitViolation` -/

@[simp] theorem raiseSyncBitViolation_phase (w : Word16) (s : State) : (raiseSyncBitViolation w s).phase = .faultSync := rfl
@[simp] theorem raiseSyncBitViolation_channelCount (w : Word16) (s : State) : (raiseSyncBitViolation w s).channelCount = s.channelCount := rfl
@[simp] theorem raiseSyncBitViolation_fullScale (w : Word16) (s : State) : (raiseSyncBitViolation w s).fullScale = s.fullScale := rfl
@[simp] theorem raiseSyncBitViolation_fudge (w : Word16) (s : State) : (raiseSyncBitViolation w s).fudge = s.fudge := rfl
@[simp] theorem raiseSyncBitViolation_idx (w : Word16) (s : State) : (raiseSyncBitViolation w s).idx = s.idx := rfl
@[simp] theorem raiseSyncBitViolation_rowValid (w : Word16) (s : State) : (raiseSyncBitViolation w s).rowValid = s.rowValid := rfl
@[simp] theorem raiseSyncBitViolation_errIndex (w : Word16) (s : State) : (raiseSyncBitViolation w s).errIndex = some s.idx := rfl
@[simp] theorem raiseSyncBitViolation_errWord (w : Word16) (s : State) : (raiseSyncBitViolation w s).errWord = some w := rfl
@[simp] theorem raiseSyncBitViolation_out (w : Word16) (s : State) : (raiseSyncBitViolation w s).out = emptyRow := rfl
@[simp] theorem raiseSyncBitViolation_pending (w : Word16) (s : State) : (raiseSyncBitViolation w s).pending = s.pending := rfl
@[simp] theorem raiseSyncBitViolation_replies (w : Word16) (s : State) : (raiseSyncBitViolation w s).replies = s.replies := rfl
@[simp] theorem raiseSyncBitViolation_draws (w : Word16) (s : State) : (raiseSyncBitViolation w s).draws = s.draws := rfl

/-! ## `raiseConfigurationOutOfRange` -/

@[simp] theorem raiseConfigurationOutOfRange_phase (s : State) : (raiseConfigurationOutOfRange s).phase = .faultCfg := rfl
@[simp] theorem raiseConfigurationOutOfRange_channelCount (s : State) : (raiseConfigurationOutOfRange s).channelCount = s.channelCount := rfl
@[simp] theorem raiseConfigurationOutOfRange_fullScale (s : State) : (raiseConfigurationOutOfRange s).fullScale = s.fullScale := rfl
@[simp] theorem raiseConfigurationOutOfRange_fudge (s : State) : (raiseConfigurationOutOfRange s).fudge = s.fudge := rfl
@[simp] theorem raiseConfigurationOutOfRange_idx (s : State) : (raiseConfigurationOutOfRange s).idx = s.idx := rfl
@[simp] theorem raiseConfigurationOutOfRange_rowValid (s : State) : (raiseConfigurationOutOfRange s).rowValid = s.rowValid := rfl
@[simp] theorem raiseConfigurationOutOfRange_errIndex (s : State) : (raiseConfigurationOutOfRange s).errIndex = s.errIndex := rfl
@[simp] theorem raiseConfigurationOutOfRange_errWord (s : State) : (raiseConfigurationOutOfRange s).errWord = s.errWord := rfl
@[simp] theorem raiseConfigurationOutOfRange_out (s : State) : (raiseConfigurationOutOfRange s).out = s.out := rfl
@[simp] theorem raiseConfigurationOutOfRange_pending (s : State) : (raiseConfigurationOutOfRange s).pending = s.pending := rfl
@[simp] theorem raiseConfigurationOutOfRange_replies (s : State) : (raiseConfigurationOutOfRange s).replies = s.replies := rfl
@[simp] theorem raiseConfigurationOutOfRange_draws (s : State) : (raiseConfigurationOutOfRange s).draws = s.draws := rfl

/-! ## `resetBlock` -/

@[simp] theorem resetBlock_phase (s : State) : (resetBlock s).phase = State.reset.phase := rfl
@[simp] theorem resetBlock_channelCount (s : State) : (resetBlock s).channelCount = State.reset.channelCount := rfl
@[simp] theorem resetBlock_fullScale (s : State) : (resetBlock s).fullScale = State.reset.fullScale := rfl
@[simp] theorem resetBlock_fudge (s : State) : (resetBlock s).fudge = State.reset.fudge := rfl
@[simp] theorem resetBlock_idx (s : State) : (resetBlock s).idx = State.reset.idx := rfl
@[simp] theorem resetBlock_rowValid (s : State) : (resetBlock s).rowValid = State.reset.rowValid := rfl
@[simp] theorem resetBlock_errIndex (s : State) : (resetBlock s).errIndex = State.reset.errIndex := rfl
@[simp] theorem resetBlock_errWord (s : State) : (resetBlock s).errWord = State.reset.errWord := rfl
@[simp] theorem resetBlock_out (s : State) : (resetBlock s).out = State.reset.out := rfl
@[simp] theorem resetBlock_pending (s : State) : (resetBlock s).pending = s.pending := rfl
@[simp] theorem resetBlock_replies (s : State) : (resetBlock s).replies = s.replies := rfl
@[simp] theorem resetBlock_draws (s : State) : (resetBlock s).draws = s.draws := rfl

/-! ## `latchConfiguration` -/

@[simp] theorem latchConfiguration_phase (n : BitVec 8) (fs ff : F32) (s : State) : (latchConfiguration n fs ff s).phase = .run := rfl
@[simp] theorem latchConfiguration_channelCount (n : BitVec 8) (fs ff : F32) (s : State) : (latchConfiguration n fs ff s).channelCount = some (n.setWidth 6) := rfl
@[simp] theorem latchConfiguration_fullScale (n : BitVec 8) (fs ff : F32) (s : State) : (latchConfiguration n fs ff s).fullScale = some fs := rfl
@[simp] theorem latchConfiguration_fudge (n : BitVec 8) (fs ff : F32) (s : State) : (latchConfiguration n fs ff s).fudge = some ff := rfl
@[simp] theorem latchConfiguration_idx (n : BitVec 8) (fs ff : F32) (s : State) : (latchConfiguration n fs ff s).idx = s.idx := rfl
@[simp] theorem latchConfiguration_rowValid (n : BitVec 8) (fs ff : F32) (s : State) : (latchConfiguration n fs ff s).rowValid = s.rowValid := rfl
@[simp] theorem latchConfiguration_errIndex (n : BitVec 8) (fs ff : F32) (s : State) : (latchConfiguration n fs ff s).errIndex = s.errIndex := rfl
@[simp] theorem latchConfiguration_errWord (n : BitVec 8) (fs ff : F32) (s : State) : (latchConfiguration n fs ff s).errWord = s.errWord := rfl
@[simp] theorem latchConfiguration_out (n : BitVec 8) (fs ff : F32) (s : State) : (latchConfiguration n fs ff s).out = s.out := rfl
@[simp] theorem latchConfiguration_pending (n : BitVec 8) (fs ff : F32) (s : State) : (latchConfiguration n fs ff s).pending = s.pending := rfl
@[simp] theorem latchConfiguration_replies (n : BitVec 8) (fs ff : F32) (s : State) : (latchConfiguration n fs ff s).replies = s.replies := rfl
@[simp] theorem latchConfiguration_draws (n : BitVec 8) (fs ff : F32) (s : State) : (latchConfiguration n fs ff s).draws = s.draws := rfl

/-! ## `writeSample` -/

@[simp] theorem writeSample_phase (j : Index) (v : F32) (s : State) : (writeSample j v s).phase = s.phase := rfl
@[simp] theorem writeSample_channelCount (j : Index) (v : F32) (s : State) : (writeSample j v s).channelCount = s.channelCount := rfl
@[simp] theorem writeSample_fullScale (j : Index) (v : F32) (s : State) : (writeSample j v s).fullScale = s.fullScale := rfl
@[simp] theorem writeSample_fudge (j : Index) (v : F32) (s : State) : (writeSample j v s).fudge = s.fudge := rfl
@[simp] theorem writeSample_idx (j : Index) (v : F32) (s : State) : (writeSample j v s).idx = s.idx := rfl
@[simp] theorem writeSample_rowValid (j : Index) (v : F32) (s : State) : (writeSample j v s).rowValid = s.rowValid := rfl
@[simp] theorem writeSample_errIndex (j : Index) (v : F32) (s : State) : (writeSample j v s).errIndex = s.errIndex := rfl
@[simp] theorem writeSample_errWord (j : Index) (v : F32) (s : State) : (writeSample j v s).errWord = s.errWord := rfl
@[simp] theorem writeSample_out (j : Index) (v : F32) (s : State) : (writeSample j v s).out = writeOut s.out j v := rfl
@[simp] theorem writeSample_pending (j : Index) (v : F32) (s : State) : (writeSample j v s).pending = s.pending := rfl
@[simp] theorem writeSample_replies (j : Index) (v : F32) (s : State) : (writeSample j v s).replies = s.replies := rfl
@[simp] theorem writeSample_draws (j : Index) (v : F32) (s : State) : (writeSample j v s).draws = s.draws + 1 := rfl

/-! ## `addReply` -/

@[simp] theorem addReply_phase (r : Reply) (s : State) : (addReply r s).phase = s.phase := rfl
@[simp] theorem addReply_channelCount (r : Reply) (s : State) : (addReply r s).channelCount = s.channelCount := rfl
@[simp] theorem addReply_fullScale (r : Reply) (s : State) : (addReply r s).fullScale = s.fullScale := rfl
@[simp] theorem addReply_fudge (r : Reply) (s : State) : (addReply r s).fudge = s.fudge := rfl
@[simp] theorem addReply_idx (r : Reply) (s : State) : (addReply r s).idx = s.idx := rfl
@[simp] theorem addReply_rowValid (r : Reply) (s : State) : (addReply r s).rowValid = s.rowValid := rfl
@[simp] theorem addReply_errIndex (r : Reply) (s : State) : (addReply r s).errIndex = s.errIndex := rfl
@[simp] theorem addReply_errWord (r : Reply) (s : State) : (addReply r s).errWord = s.errWord := rfl
@[simp] theorem addReply_out (r : Reply) (s : State) : (addReply r s).out = s.out := rfl
@[simp] theorem addReply_pending (r : Reply) (s : State) : (addReply r s).pending = s.pending := rfl
@[simp] theorem addReply_replies (r : Reply) (s : State) : (addReply r s).replies = s.replies ++ [r] := rfl
@[simp] theorem addReply_draws (r : Reply) (s : State) : (addReply r s).draws = s.draws := rfl

/-! ## `releaseRow` -/

@[simp] theorem releaseRow_phase (s : State) : (releaseRow s).phase = s.phase := rfl
@[simp] theorem releaseRow_channelCount (s : State) : (releaseRow s).channelCount = s.channelCount := rfl
@[simp] theorem releaseRow_fullScale (s : State) : (releaseRow s).fullScale = s.fullScale := rfl
@[simp] theorem releaseRow_fudge (s : State) : (releaseRow s).fudge = s.fudge := rfl
@[simp] theorem releaseRow_idx (s : State) : (releaseRow s).idx = s.idx := rfl
@[simp] theorem releaseRow_rowValid (s : State) : (releaseRow s).rowValid = false := rfl
@[simp] theorem releaseRow_errIndex (s : State) : (releaseRow s).errIndex = s.errIndex := rfl
@[simp] theorem releaseRow_errWord (s : State) : (releaseRow s).errWord = s.errWord := rfl
@[simp] theorem releaseRow_out (s : State) : (releaseRow s).out = emptyRow := rfl
@[simp] theorem releaseRow_pending (s : State) : (releaseRow s).pending = s.pending := rfl
@[simp] theorem releaseRow_replies (s : State) : (releaseRow s).replies = s.replies := rfl
@[simp] theorem releaseRow_draws (s : State) : (releaseRow s).draws = s.draws := rfl

/-! ## `advance` (42_row_and_host_ops.md R85): only `IDX` and `ROW_VALID` -/

@[simp] theorem advance_phase (n : Count) (s : State) : (advance n s).phase = s.phase := by unfold advance; split <;> rfl
@[simp] theorem advance_channelCount (n : Count) (s : State) : (advance n s).channelCount = s.channelCount := by unfold advance; split <;> rfl
@[simp] theorem advance_fullScale (n : Count) (s : State) : (advance n s).fullScale = s.fullScale := by unfold advance; split <;> rfl
@[simp] theorem advance_fudge (n : Count) (s : State) : (advance n s).fudge = s.fudge := by unfold advance; split <;> rfl
@[simp] theorem advance_errIndex (n : Count) (s : State) : (advance n s).errIndex = s.errIndex := by unfold advance; split <;> rfl
@[simp] theorem advance_errWord (n : Count) (s : State) : (advance n s).errWord = s.errWord := by unfold advance; split <;> rfl
@[simp] theorem advance_out (n : Count) (s : State) : (advance n s).out = s.out := by unfold advance; split <;> rfl
@[simp] theorem advance_pending (n : Count) (s : State) : (advance n s).pending = s.pending := by unfold advance; split <;> rfl
@[simp] theorem advance_replies (n : Count) (s : State) : (advance n s).replies = s.replies := by unfold advance; split <;> rfl
@[simp] theorem advance_draws (n : Count) (s : State) : (advance n s).draws = s.draws := by unfold advance; split <;> rfl
@[simp] theorem advance_idx (n : Count) (s : State) :
    (advance n s).idx = if rowCompletes s.idx n then 0 else s.idx + 1 := by unfold advance; split <;> rfl
@[simp] theorem advance_rowValid (n : Count) (s : State) :
    (advance n s).rowValid = if rowCompletes s.idx n then true else s.rowValid := by unfold advance; split <;> rfl

end Sys2Proof.Machine
end

