-- ==== Sys2Proof/Laws/Ops.lean ====
section
/-! SUPPORT. For each shared operation, once, everything it can do. -/

namespace Sys2Proof.Machine

/-! ## The row buffer -/

@[simp] theorem readOut_emptyRow (j : Index) : readOut emptyRow j = none := by
  simp [readOut, emptyRow]

@[simp] theorem readOut_writeOut_same (b : RowBuffer) (j : Index) (v : F32) : readOut (writeOut b j v) j = some v := by
  simp [readOut, writeOut]

theorem readOut_writeOut_other (b : RowBuffer) (i j : Index) (v : F32) (h : j ≠ i) :
    readOut (writeOut b i v) j = readOut b j := by
  have hij : i.toNat ≠ j.toNat := fun e => h (BitVec.eq_of_toNat_eq e.symm)
  simp [readOut, writeOut, hij]

/-- Two buffers with the same entries are the same. -/
theorem rowBuffer_ext (a b : RowBuffer) (h : ∀ j : Index, readOut a j = readOut b j) : a = b := by
  apply Vector.ext
  intro i hi
  have hb := h (BitVec.ofNat 5 i)
  have hm : i % 32 = i := Nat.mod_eq_of_lt hi
  simpa [readOut, BitVec.toNat_ofNat, hm] using hb

/-! ## When a word has a step -/

theorem pushCount_eq_some (s : State) (n : Count) :
    pushCount s = some n ↔ s.phase = .run ∧ s.rowValid = false ∧ s.channelCount = some n ∧ 1 ≤ n.toNat := by
  unfold pushCount
  split
  · rename_i h
    rw [Option.filter_eq_some_iff]
    simp [h]
  · rename_i h
    simp only [reduceCtorEq, false_iff]
    exact fun hc => h ⟨hc.1, hc.2.1⟩

theorem pushCount_of_accepts {s : State} {n : Count} {fs ff : F32} (h : s.Accepts n fs ff) : pushCount s = some n :=
  (pushCount_eq_some s n).2 ⟨h.1, h.2.1, h.2.2.1, h.2.2.2.1⟩

theorem whenPushEnabled_of_accepts {s : State} {n : Count} {fs ff : F32} (h : s.Accepts n fs ff)
    (k : Count → Host.Outcome State Fault Refusal) : whenPushEnabled s k = k n := by
  simp [whenPushEnabled, pushCount_of_accepts h]

/-- A word answers a next state only when `PUSH` is enabled. -/
theorem whenPushEnabled_next {s t : State} {k : Count → Host.Outcome State Fault Refusal}
    (h : whenPushEnabled s k = .next t) : ∃ n, pushCount s = some n ∧ k n = .next t := by
  unfold whenPushEnabled at h
  split at h
  · rename_i n hn
    exact ⟨n, hn, h⟩
  · cases h

/-! ## What an accepted word does -/

theorem acceptSample_of_accepts {s : State} {n : Count} {fs ff : F32} (h : s.Accepts n fs ff) (N : DrawnNumerics)
    (j : Index) (r : Code14) (m : Count) :
    acceptSample N j r m s =
      .next (advance m (writeSample j (calibrateWith (N (Config.nanDraw s.draws)) r fs ff) s)) := by
  simp [acceptSample, h.2.2.2.2.1, h.2.2.2.2.2]

theorem acceptSample_next {N : DrawnNumerics} {s t : State} {j : Index} {r : Code14} {n : Count}
    (h : acceptSample N j r n s = .next t) :
    ∃ fs ff, s.fullScale = some fs ∧ s.fudge = some ff ∧
      t = advance n (writeSample j (calibrateWith (N (Config.nanDraw s.draws)) r fs ff) s) := by
  unfold acceptSample at h
  split at h
  · rename_i fs ff hfs hff
    cases h
    exact ⟨fs, ff, hfs, hff, rfl⟩
  · cases h

/-- The machine's words are those of the default numerics. -/
theorem exec_eq_execWith : exec = execWith binary32 := by
  funext i s
  cases i <;> rfl

/-- The machine's step is that of the default numerics. -/
theorem step_eq_stepWith : step = stepWith binary32 := by
  funext s
  rw [step, stepWith, exec_eq_execWith]

/-- A word stops where `PUSH` is not enabled. -/
theorem execWith_of_pushCount_none {s : State} (h : pushCount s = none) (N : DrawnNumerics) (i : Instr) :
    execWith N i s = .fault .pushNotEnabled := by
  cases i <;> simp [execWith, execFirstWith, execNextWith, execBad00, execBad01, whenPushEnabled, h]

/-- Everything a word can do: it is accepted at its index, or it raises the violation that records its own word. -/
theorem execWith_next {N : DrawnNumerics} {i : Instr} {s t : State} (h : execWith N i s = .next t) :
    ∃ n, pushCount s = some n ∧
      ((∃ fs ff, s.fullScale = some fs ∧ s.fudge = some ff ∧
          ((s.idx = 0 ∧ i = .first i.raw14) ∨ (s.idx ≠ 0 ∧ i = .next i.raw14)) ∧
          t = advance n (writeSample s.idx (calibrateWith (N (Config.nanDraw s.draws)) i.raw14 fs ff) s)) ∨
        (¬ (s.idx = 0 ∧ i = .first i.raw14) ∧ ¬ (s.idx ≠ 0 ∧ i = .next i.raw14) ∧
          t = raiseSyncBitViolation (encode i) s)) := by
  cases i with
  | first r =>
    obtain ⟨n, hn, hk⟩ := whenPushEnabled_next (h : execFirstWith N r s = .next t)
    refine ⟨n, hn, ?_⟩
    split at hk
    · rename_i hidx
      cases hk
      exact .inr ⟨fun hc => hidx hc.1, fun hc => Instr.noConfusion hc.2, rfl⟩
    · rename_i hidx
      have hz : s.idx = 0 := not_not.mp hidx
      obtain ⟨fs, ff, hfs, hff, ht⟩ := acceptSample_next hk
      exact .inl ⟨fs, ff, hfs, hff, .inl ⟨hz, rfl⟩, by rw [hz]; exact ht⟩
  | next r =>
    obtain ⟨n, hn, hk⟩ := whenPushEnabled_next (h : execNextWith N r s = .next t)
    refine ⟨n, hn, ?_⟩
    split at hk
    · rename_i hidx
      cases hk
      exact .inr ⟨fun hc => Instr.noConfusion hc.2, fun hc => hc.1 hidx, rfl⟩
    · rename_i hidx
      obtain ⟨fs, ff, hfs, hff, ht⟩ := acceptSample_next hk
      exact .inl ⟨fs, ff, hfs, hff, .inr ⟨hidx, rfl⟩, ht⟩
  | bad00 r =>
    obtain ⟨n, hn, hk⟩ := whenPushEnabled_next (h : execBad00 r s = .next t)
    cases hk
    exact ⟨n, hn, .inr ⟨fun hc => Instr.noConfusion hc.2, fun hc => Instr.noConfusion hc.2, rfl⟩⟩
  | bad01 r =>
    obtain ⟨n, hn, hk⟩ := whenPushEnabled_next (h : execBad01 r s = .next t)
    cases hk
    exact ⟨n, hn, .inr ⟨fun hc => Instr.noConfusion hc.2, fun hc => Instr.noConfusion hc.2, rfl⟩⟩

/-- The same of `exec`. -/
theorem exec_next {i : Instr} {s t : State} (h : exec i s = .next t) :
    ∃ n, pushCount s = some n ∧
      ((∃ fs ff, s.fullScale = some fs ∧ s.fudge = some ff ∧
          ((s.idx = 0 ∧ i = .first i.raw14) ∨ (s.idx ≠ 0 ∧ i = .next i.raw14)) ∧
          t = advance n (writeSample s.idx (calibrate (Config.nanDraw s.draws) i.raw14 fs ff) s)) ∨
        (¬ (s.idx = 0 ∧ i = .first i.raw14) ∧ ¬ (s.idx ≠ 0 ∧ i = .next i.raw14) ∧
          t = raiseSyncBitViolation (encode i) s)) :=
  execWith_next (exec_eq_execWith ▸ h)

/-! ## What a host operation does -/

/-- Everything a host operation can do, words executed by `run`. -/
theorem performOn_next {run : WordExec} {op : HostOp} {s t : State} (h : performOn run op s = .next t) :
    (op = .reset ∧ t = resetBlock s) ∨
    (∃ n fs ff, op = .configure n fs ff ∧ s.phase = .unconf ∧ Config.maxChannels < n.toNat ∧
      t = raiseConfigurationOutOfRange s) ∨
    (∃ n fs ff, op = .configure n fs ff ∧ s.phase = .unconf ∧ n.toNat ≤ Config.maxChannels ∧
      t = latchConfiguration n fs ff s) ∨
    (∃ w, op = .push w ∧ run (decodeWord w) s = .next t) ∨
    (∃ n vs, op = .takeRow ∧ s.phase = .run ∧ s.rowValid = true ∧ s.channelCount = some n ∧
      rowValues s.out n.toNat = some vs ∧ t = addReply (.row vs) (releaseRow s)) ∨
    (∃ r v, op = .readReg r ∧ readRegister r s = some v ∧ t = addReply (.register r v) s) := by
  cases op with
  | reset =>
    cases (h : Host.Outcome.next (resetBlock s) = .next t)
    exact .inl ⟨rfl, rfl⟩
  | configure n fs ff =>
    change performConfigure n fs ff s = .next t at h
    unfold performConfigure at h
    split at h
    · rename_i hp
      split at h
      · rename_i hn
        cases h
        exact .inr (.inl ⟨n, fs, ff, rfl, hp, hn, rfl⟩)
      · rename_i hn
        cases h
        exact .inr (.inr (.inl ⟨n, fs, ff, rfl, hp, Nat.le_of_not_lt hn, rfl⟩))
    · cases h
  | push w => exact .inr (.inr (.inr (.inl ⟨w, rfl, h⟩)))
  | takeRow =>
    change performTakeRow s = .next t at h
    unfold performTakeRow at h
    split at h
    · rename_i hp
      split at h
      · rename_i vs hvs
        obtain ⟨n, hn, hv⟩ := Option.bind_eq_some_iff.mp hvs
        cases h
        exact .inr (.inr (.inr (.inr (.inl ⟨n, vs, rfl, hp.1, hp.2, hn, hv, rfl⟩))))
      · cases h
    · cases h
  | readReg r =>
    change performReadReg r s = .next t at h
    unfold performReadReg at h
    split at h
    · rename_i v hv
      cases h
      exact .inr (.inr (.inr (.inr (.inr ⟨r, v, rfl, hv, rfl⟩))))
    · cases h

/-- The same of `perform`. -/
theorem perform_next {op : HostOp} {s t : State} (h : perform op s = .next t) :
    (op = .reset ∧ t = resetBlock s) ∨
    (∃ n fs ff, op = .configure n fs ff ∧ s.phase = .unconf ∧ Config.maxChannels < n.toNat ∧
      t = raiseConfigurationOutOfRange s) ∨
    (∃ n fs ff, op = .configure n fs ff ∧ s.phase = .unconf ∧ n.toNat ≤ Config.maxChannels ∧
      t = latchConfiguration n fs ff s) ∨
    (∃ w, op = .push w ∧ exec (decodeWord w) s = .next t) ∨
    (∃ n vs, op = .takeRow ∧ s.phase = .run ∧ s.rowValid = true ∧ s.channelCount = some n ∧
      rowValues s.out n.toNat = some vs ∧ t = addReply (.row vs) (releaseRow s)) ∨
    (∃ r v, op = .readReg r ∧ readRegister r s = some v ∧ t = addReply (.register r v) s) :=
  performOn_next h

/-- Everything a step can do: the host's next operation, taken from its list. -/
theorem performNext_next {run : WordExec} {s t : State} (h : performNext run s = .next t) :
    ∃ op rest, s.pending = op :: rest ∧ performOn run op { s with pending := rest } = .next t := by
  unfold performNext at h
  split at h
  · rename_i op rest hp
    exact ⟨op, rest, hp, h⟩
  · cases h

/-- The same of `step`. -/
theorem step_next {s t : State} (h : step s = .next t) :
    ∃ op rest, s.pending = op :: rest ∧ perform op { s with pending := rest } = .next t :=
  performNext_next h

/-! ## Several steps -/

/-- A run of a machine whose first step answers a next state goes on from it. -/
theorem hostCore_run_succ (M : Host.Core) {s t : M.State} {k : Nat} (h : M.step s = .next t) : M.run (k + 1) s = M.run k t := by
  simp [Host.Core.run, h]

/-- Runs of a machine compose. -/
theorem hostCore_run_add (M : Host.Core) {s t : M.State} {k m : Nat} (h : M.run k s = .next t) :
    M.run (k + m) s = M.run m t := by
  induction k generalizing s with
  | zero => cases h; simp
  | succ k ih =>
    cases hs : M.step s with
    | next u =>
      rw [Nat.add_right_comm, hostCore_run_succ M hs]
      exact ih (hostCore_run_succ M hs ▸ h)
    | fault r => simp [Host.Core.run, hs] at h
    | refused r => simp [Host.Core.run, hs] at h

/-! ## A row handed over -/

/-- `rowValues` answers exactly when the entries below `n` all hold values, and gives them in order. -/
theorem rowValues_of_isSome (b : RowBuffer) (n : Nat) (hn : n ≤ 32) (h : ∀ j : Fin 32, j.val < n → b[j].isSome = true) :
    ∃ vs, rowValues b n = some vs ∧ vs.length = n ∧ ∀ j : Index, j.toNat < n → readOut b j = vs[j.toNat]? := by
  have all : ∀ l : List (Option F32), (∀ x ∈ l, x.isSome = true) → ∃ vs : List F32, l.mapM id = some vs ∧ l = vs.map some := by
    intro l
    induction l with
    | nil => exact fun _ => ⟨[], rfl, rfl⟩
    | cons a l ih =>
      intro hl
      obtain ⟨vs, h1, h2⟩ := ih fun x hx => hl x (List.mem_cons_of_mem _ hx)
      obtain ⟨v, hv⟩ := Option.isSome_iff_exists.mp (hl a List.mem_cons_self)
      exact ⟨v :: vs, by simp [List.mapM_cons, hv, h1], by simp [hv, h2]⟩
  obtain ⟨vs, h1, h2⟩ := all (b.toList.take n) (by
    intro x hx
    obtain ⟨i, hi, rfl⟩ := List.getElem_of_mem hx
    rw [List.length_take, lt_min_iff] at hi
    simpa using h ⟨i, by simpa using hi.2⟩ hi.1)
  have hl : vs.length = n := by
    have := congrArg List.length h2
    simp at this
    omega
  refine ⟨vs, h1, hl, fun j hj => ?_⟩
  have hj32 := j.isLt
  have := congrArg (fun l => l[j.toNat]?) h2
  simp only [List.getElem?_map, List.getElem?_take, hj, if_true] at this
  simp at this
  rw [List.getElem?_eq_getElem (hl.symm ▸ hj)] at this ⊢
  rw [Vector.getElem?_eq_getElem hj32] at this
  exact Option.some.inj this

end Sys2Proof.Machine
end

