-- ==== Sys2Proof/Laws/PerInstr.lean ====
section
/-! SUPPORT. Families of statements about every instruction as syntax, one lemma per constructor. -/

namespace Sys2Proof.Laws.CodeInRange

/-- Every instruction's sample code lies in [0, 16383] (30_encoding.md R44, R46). -/
def Statement (i : Instr) : Prop := i.wf = true

theorem first (raw14 : Code14) : Statement (.first raw14) := by
  have := raw14.isLt
  exact decide_eq_true (by simp only [Instr.raw14]; omega)

theorem next (raw14 : Code14) : Statement (.next raw14) := by
  have := raw14.isLt
  exact decide_eq_true (by simp only [Instr.raw14]; omega)

theorem bad00 (raw14 : Code14) : Statement (.bad00 raw14) := by
  have := raw14.isLt
  exact decide_eq_true (by simp only [Instr.raw14]; omega)

theorem bad01 (raw14 : Code14) : Statement (.bad01 raw14) := by
  have := raw14.isLt
  exact decide_eq_true (by simp only [Instr.raw14]; omega)

end Sys2Proof.Laws.CodeInRange
end

