-- ==== Sys2Proof/Tests/Slice0.lean ====
section
/-! SUPPORT. The model's own tests. Expected results are those 95_test_vectors.md writes out, or a rule's own example.
The witnesses at the end show, for each statement with hypotheses, concrete values that meet them. -/

namespace Sys2Proof.Tests

open Sys2Proof Sys2Proof.Machine

/-! ## Helpers -/

/-- The next state of an outcome. -/
def nextOf : Host.Outcome State Fault Refusal → Option State
  | .next t => some t
  | .fault _ => none
  | .refused _ => none

/-- The fault of an outcome. -/
def faultOf : Host.Outcome State Fault Refusal → Option Fault
  | .next _ => none
  | .fault r => some r
  | .refused _ => none

/-- The refusal of an outcome. -/
def refusalOf : Host.Outcome State Fault Refusal → Option Refusal
  | .next _ => none
  | .fault _ => none
  | .refused r => some r

/-- The fault record of an outcome: `STATE`, `ERR_INDEX`, `ERR_WORD`. -/
def recordOf (o : Host.Outcome State Fault Refusal) : Option (Phase × Option Index × Option Word16) :=
  (nextOf o).map fun t => (t.phase, t.errIndex, t.errWord)

/-- The last result the host has received. -/
def replyOf (o : Host.Outcome State Fault Refusal) : Option Reply := (nextOf o).bind fun t => t.replies.getLast?

/-- A buffer whose first `k` entries hold 1.0. -/
def fill (k : Nat) : RowBuffer := Vector.ofFn fun j => if j.val < k then some Config.fOne else none

/-- A session of `n` channels with `FULL_SCALE = 10.0`, `FUDGE = 1.0`, the next word due at `idx`. -/
def running (n : Count) (idx : Index) : State :=
  { State.reset with
    phase := .run, channelCount := some n, fullScale := some 0x41200000#32, fudge := some 0x3F800000#32
    idx := idx, out := fill idx.toNat }

/-- A session of `n` channels with a complete row of 1.0. -/
def complete (n : Count) : State := { running n 0 with rowValid := true, out := fill n.toNat }

/-- The end state of program P3: a violation at index 2 by the word 0x4100. -/
def violated : State :=
  { running 3 2 with phase := .faultSync, errIndex := some 2, errWord := some 0x4100#16, out := emptyRow }

/-- A `ConfigurationOutOfRange` (program P5). -/
def outOfRange : State := { State.reset with phase := .faultCfg }

/-! ## Well-formedness: ill-formed terms are refused -/

/-- A row of another length, and one of 33 words, are outside the domain (42_row_and_host_ops.md R78). -/
theorem test_wf_row :
    rowWf [0x0100#16] 2 = false ∧ rowWf (List.replicate 33 0x0100#16) 33 = false ∧
      rowWf [0x0100#16, 0x0101#16] 2 = true ∧ rowWf (List.replicate 32 0x0100#16) 32 = true ∧ rowWf [] 0 = true := by
  decide

/-- A code above 16383 is refused in every line that carries one (30_encoding.md R48). -/
theorem test_wf_line_code :
    (Line.first 16384).wf = false ∧ (Line.next 16384).wf = false ∧ (Line.bad00 16384).wf = false ∧
      (Line.bad01 16384).wf = false ∧ (Line.first 16383).wf = true ∧ (Line.bad01 0).wf = true := by
  decide

/-- So are a word of 17 bits, a count of 9 bits, a constant of 33 bits, register 64 and `OUT[32]`. -/
theorem test_wf_line_numbers :
    (Line.word 65536).wf = false ∧ (Line.configure 256 (.bits 0) (.bits 0)).wf = false ∧
      (Line.configure 2 (.bits 4294967296) (.bits 0)).wf = false ∧
      (Line.configure 2 (.bits 0) (.bits 4294967296)).wf = false ∧ (Line.readReg (.number 64)).wf = false ∧
      (Line.readReg (.out 32)).wf = false ∧
      (Line.configure 255 (.decimal true 10 0) (.bits 4294967295)).wf = true ∧ (Line.readReg (.out 31)).wf = true := by
  decide

/-- Every code is in range: the check accepts the extremes of each kind (30_encoding.md R46). -/
theorem test_wf_instr :
    (Instr.first 16383).wf = true ∧ (Instr.next 0).wf = true ∧ (Instr.bad00 16383).wf = true ∧
      (Instr.bad01 0).wf = true := by
  decide

/-! ## Decoding: words written out from 30_encoding.md R40 and 95_test_vectors.md V1, V2 -/

/-- `DH` = 1111111, `S1` = 1, `DL` = 1111111, `S0` = 0; then `DL` alone; then `DH` alone. -/
theorem test_decode_first :
    decodeWord 0b1111111_1_1111111_0#16 = .first 16383#14 ∧ decodeWord 0b0000000_1_1111111_0#16 = .first 127#14 ∧
      decodeWord 0b1111111_1_0000000_0#16 = .first 16256#14 ∧ decodeWord 0x55AA#16 = .first 5461#14 := by
  decide

theorem test_decode_next :
    decodeWord 0b1010101_1_1100110_1#16 = .next 10982#14 ∧ decodeWord 0x9D21#16 = .next 10000#14 ∧
      decodeWord 0x8101#16 = .next 8192#14 ∧ decodeWord 0x0103#16 = .next 1#14 := by
  decide

theorem test_decode_bad00 :
    decodeWord 0b0001001_0_0011010_0#16 = .bad00 1178#14 ∧ decodeWord 0xFEFE#16 = .bad00 16383#14 := by
  decide

theorem test_decode_bad01 :
    decodeWord 0b0000000_0_1111111_1#16 = .bad01 127#14 ∧ decodeWord 0xFEFF#16 = .bad01 16383#14 := by
  decide

/-- The words of V2, encoded from their codes. -/
theorem test_encode :
    encode (.first 10922) = 0xAB54#16 ∧ encode (.next 128) = 0x0301#16 ∧ encode (.bad00 1178) = 0x1234#16 ∧
      encode (.bad01 127) = 0x00FF#16 := by
  decide

/-- Row A of program P2 on the wire: "00 01 01 41 01 81 21 9D 01 C1 FF FF". -/
theorem test_wire_bytes :
    ([.first 0, .next 4096, .next 8192, .next 10000, .next 12288, .next 16383] : List Instr).flatMap encodeBytes =
      [0x00#8, 0x01#8, 0x01#8, 0x41#8, 0x01#8, 0x81#8, 0x21#8, 0x9D#8, 0x01#8, 0xC1#8, 0xFF#8, 0xFF#8] := by
  decide

/-- The first byte received is the low one, and one byte alone is no word (20_memory.md R28). -/
theorem test_decode_bytes :
    decode [0x21#8, 0x9D#8, 0x07#8] = .ok (.next 10000#14, [0x07#8]) ∧
      decode [0x21#8] = .error .fewerThanTwoBytes ∧ decode [] = .error .fewerThanTwoBytes :=
  ⟨rfl, rfl, rfl⟩

/-- The four rows of the opcode table. -/
theorem test_table_words :
    decodeTableWord 16 0x0100 = some (.first 0) ∧ decodeTableWord 16 0x0101 = some (.next 0) ∧
      decodeTableWord 16 0x0000 = some (.bad00 0) ∧ decodeTableWord 16 0x0001 = some (.bad01 0) := by
  decide

/-! ## The words, one step each -/

/-- `FIRST 0` of program P1. -/
theorem test_first_stores :
    (nextOf (exec (.first 0) (running 2 0))).map (fun t => (readOut t.out 0, t.idx, t.rowValid)) =
      some (some 0xC1200000#32, 1, false) := by
  decide

/-- V4: `0xFFFE` at index 5. -/
theorem test_first_violates :
    recordOf (exec (.first 16383) (running 6 5)) = some (.faultSync, some 5, some 0xFFFE#16) := by
  decide

/-- `NEXT 16383` of program P1 completes the row. -/
theorem test_next_stores :
    (nextOf (exec (.next 16383) (running 2 1))).map (fun t => (readOut t.out 1, t.idx, t.rowValid)) =
      some (some 0x411FFB00#32, 0, true) := by
  decide

/-- Program P4: the word `0x5555` at index 0. -/
theorem test_next_violates :
    recordOf (perform (.push 0x5555) (running 2 0)) = some (.faultSync, some 0, some 0x5555#16) := by
  decide

/-- The example of 40_frame_words.md R58: the row's values are gone, `IDX` is kept. -/
theorem test_bad00_violates :
    (nextOf (exec (.bad00 0) (running 4 3))).map (fun t => (t.errIndex, t.errWord, t.idx, readOut t.out 0)) =
      some (some 3, some 0x0000#16, 3, none) := by
  decide

/-- V4: `0x8001` at index 31. -/
theorem test_bad01_violates :
    recordOf (perform (.push 0x8001) (running 32 31)) = some (.faultSync, some 31, some 0x8001#16) := by
  decide

/-- V4: `0x8101` at index 31 of 32 channels is accepted and wraps the index to 0. -/
theorem test_next_at_31 :
    (nextOf (perform (.push 0x8101) (running 32 31))).map (fun t => (readOut t.out 31, t.idx, t.rowValid)) =
      some (some 0x00000000#32, 0, true) := by
  decide

/-! ## The numerics: vectors V3 and V5 to V8 -/

/-- V3. -/
theorem test_centred :
    centredWith (binary32 0) 1 = 0xBF7FF800#32 ∧ centredWith (binary32 0) 5461 = 0xBEAAB000#32 ∧
      centredWith (binary32 0) 8193 = 0x39000000#32 ∧ centredInteger 10922 = 0x3EAAA000#32 := by
  decide

/-- V5: 10.0 and 1.0. -/
theorem test_calibrate_exact :
    calibrate 0 1 0x41200000 0x3F800000 = 0xC11FFB00#32 ∧ calibrate 0 8191 0x41200000 0x3F800000 = 0xBAA00000#32 ∧
      calibrate 0 12288 0x41200000 0x3F800000 = 0x40A00000#32 := by
  decide

/-- V6: 10.0 and 1.018 rounded; 10000 is the code that tells the product order. -/
theorem test_calibrate_rounds :
    calibrate 0 5000 0x41200000 0x3F824DD3 = 0xC07DDD1F#32 ∧ calibrate 0 10000 0x41200000 0x3F824DD3 = 0x400FCAE2#32 ∧
      calibrate 0 16382 0x41200000 0x3F824DD3 = 0x4122D71A#32 := by
  decide

/-- V7: a negative and a negative-zero full scale. -/
theorem test_calibrate_signs :
    calibrate 0 8192 0xC1200000 0x3F800000 = 0x80000000#32 ∧ calibrate 0 0 0xC1200000 0x3F800000 = 0x41200000#32 ∧
      calibrate 0 8191 0x80000000 0x3F800000 = 0x00000000#32 ∧
      calibrate 0 8193 0x80000000 0x3F800000 = 0x80000000#32 := by
  decide

/-- V8: subnormal results, the tie at half the smallest subnormal, an overflowing product. -/
theorem test_calibrate_extremes :
    calibrate 0 1 0x00800000 0x3F800000 = 0x807FFC00#32 ∧ calibrate 0 4096 0x00000001 0x3F800000 = 0x80000000#32 ∧
      calibrate 0 0 0x7F7FFFFF 0x40000000 = 0xFF800000#32 ∧
      F32.classify (calibrate 0 8192 0x7F7FFFFF 0x40000000) = .quietNaN ∧
      F32.classify (calibrate 0 5 0x00000000 0x7F800000) = .quietNaN := by
  decide

/-- A decimal constant of a listing: 1.018 is 0x3F824DD3 (41_numerics.md R67). -/
theorem test_decimal_constant :
    assemble (.configure 6 (.decimal false 10 0) (.decimal false 1018 3)) =
      some (.configure 6 0x41200000#32 0x3F824DD3#32) := by
  decide

/-! ## The row function: vectors V4 -/

theorem test_row_fails_at_least_index :
    decodeRow binary32 0 [0x0101#16, 0x0100#16] 2 0x41200000 0x3F800000 = some (.error ⟨0, 0x0101#16⟩) ∧
      decodeRow binary32 0 [0x0100#16, 0x0000#16, 0x0001#16] 3 0x41200000 0x3F800000 = some (.error ⟨1, 0x0000#16⟩) :=
  ⟨rfl, rfl⟩

/-! ## The host operations: vectors V9 and the programs -/

theorem test_reset_state_refuses :
    faultOf (perform (.push 0x0100) State.reset) = some .pushNotEnabled ∧
      faultOf (perform .takeRow State.reset) = some .takeRowNotEnabled ∧
      refusalOf (perform (.readReg 1) State.reset) = some (.registerNotReadable 1) ∧
      refusalOf (perform (.readReg 7) State.reset) = some (.registerNotReadable 7) ∧
      replyOf (perform (.readReg 0) State.reset) = some (.register 0 0x00000000#32) := by
  decide

theorem test_configure :
    (nextOf (perform (.configure 32 0x41200000 0x3F800000) State.reset)).map (fun t => (t.phase, t.channelCount)) =
        some (.run, some 32) ∧
      (nextOf (perform (.configure 33 0x41200000 0x3F800000) State.reset)).map
        (fun t => (statusWord t, t.channelCount)) = some (0x00000003#32, none) ∧
      faultOf (perform (.configure 2 0x3F800000 0x3F800000) (running 2 0)) = some .configureNotEnabled := by
  decide

/-- Program P1's `TAKE_ROW`, on the row it decodes. -/
theorem test_take_row :
    replyOf (perform .takeRow { complete 2 with
        out := writeOut (writeOut emptyRow 0 0xC1200000#32) 1 0x411FFB00#32 }) =
      some (.row [0xC1200000#32, 0x411FFB00#32]) ∧
      faultOf (perform (.push 0x0100) (complete 2)) = some .pushNotEnabled := by
  decide

/-- Program P3's register reads, and V9's reads of the row. -/
theorem test_read_reg :
    replyOf (perform (.readReg 0) violated) = some (.register 0 0x00000002#32) ∧
      replyOf (perform (.readReg 5) violated) = some (.register 5 0x00000002#32) ∧
      replyOf (perform (.readReg 6) violated) = some (.register 6 0x00004100#32) ∧
      replyOf (perform (.readReg 33) (complete 2)) = some (.register 33 0x3F800000#32) ∧
      refusalOf (perform (.readReg 34) (complete 2)) = some (.registerNotReadable 34) ∧
      refusalOf (perform (.readReg 32) (running 2 1)) = some (.registerNotReadable 32) ∧
      replyOf (perform (.readReg 0) (complete 2)) = some (.register 0 0x00000005#32) := by
  decide

/-- The block waits when the host has issued nothing (60_exceptions.md R94). -/
theorem test_step_waits : faultOf (step State.reset) = some .noOperationPending := by decide

/-- `withFetchWord`: the very next step from reset runs the word as word 0 of a row. -/
theorem test_with_fetch_word :
    (nextOf (step (State.reset.withFetchWord 16 0x0100))).map (fun t => readOut t.out 0) =
        some (some 0xBF800000#32) ∧
      recordOf (step (State.reset.withFetchWord 16 0x0101)) = some (.faultSync, some 0, some 0x0101#16) := by
  decide

/-- A clock edge with `rst` and a word resets; without, it pushes (10_state.md R24). -/
theorem test_edge :
    edgeOp ⟨true, false, 0, 0, 0, true, 0x0100#16, false⟩ (running 2 0) = some .reset ∧
      edgeOp ⟨false, false, 0, 0, 0, true, 0x0100#16, false⟩ (running 2 0) = some (.push 0x0100#16) ∧
      edgeOp ⟨false, false, 0, 0, 0, true, 0x0100#16, false⟩ (complete 2) = none := by
  decide

/-- A line stands for the push of its word (30_encoding.md R48); program P6's `NEXT 5` is `0x010B`. -/
theorem test_line :
    assemble (.next 5) = some (.push 0x010B#16) ∧ assemble (.word 0x4100) = some (.push 0x4100#16) ∧
      assemble (.readReg .errWord) = some (.readReg 6) := by
  decide

/-! ## Witnesses: for each statement with hypotheses, values that meet them

A witness is named after its statement. A clause with a range gets a value at each end. -/

/-- The states used below meet the invariant of the reachable states, one of each row of the table of R89. -/
theorem test_witness_invariant :
    State.reset.Inv ∧ (running 2 0).Inv ∧ (running 2 1).Inv ∧ (running 1 0).Inv ∧ (running 32 31).Inv ∧
      (complete 2).Inv ∧ (complete 32).Inv ∧ (running 0 0).Inv ∧ violated.Inv ∧ outOfRange.Inv :=
  ⟨⟨by decide, by decide, by decide⟩, ⟨by decide, by decide, by decide⟩, ⟨by decide, by decide, by decide⟩,
    ⟨by decide, by decide, by decide⟩, ⟨by decide, by decide, by decide⟩, ⟨by decide, by decide, by decide⟩,
    ⟨by decide, by decide, by decide⟩, ⟨by decide, by decide, by decide⟩, ⟨by decide, by decide, by decide⟩,
    ⟨by decide, by decide, by decide⟩⟩

/-- The sessions used below accept words, with 1, 2 and 32 channels, at the first and the last index. -/
theorem test_witness_accepts :
    (running 1 0).Accepts 1 0x41200000 0x3F800000 ∧ (running 2 0).Accepts 2 0x41200000 0x3F800000 ∧
      (running 2 1).Accepts 2 0x41200000 0x3F800000 ∧ (running 32 31).Accepts 32 0x41200000 0x3F800000 := by
  decide

theorem test_witness_DecodeAndEncodeAgree : (Instr.bad01 16383).wf = true ∧ (Instr.first 0).wf = true := by decide

/-- A legal row: every word fits its position. -/
theorem row_legal (j : Nat) (w : Word16) (h : ([0x0100#16, 0xFFFF#16] : List Word16)[j]? = some w) : syncOk j w = true := by
  match j, h with
  | 0, h => cases h; decide
  | 1, h => cases h; decide

theorem test_witness_WireBytesOfLegalRow :
    (∀ (j : Nat) (w : Word16), ([0x0100#16, 0xFFFF#16] : List Word16)[j]? = some w → syncOk j w = true) ∧
      ([0x0100#16, 0xFFFF#16].flatMap wireBytes)[0]? = some 0x00#8 ∧
      ([0x0100#16, 0xFFFF#16].flatMap wireBytes)[3]? = some 0xFF#8 :=
  ⟨row_legal, by decide, by decide⟩

theorem test_witness_ExtractRepacksDataBits : 0xABCD#16 &&& 0xFEFE#16 = 0xAACC#16 &&& 0xFEFE#16 := by decide

theorem test_witness_SyncCheckComesFirst : 0x0100#16 &&& 0x0101#16 ≠ expect 1 ∧ 0x0100#16 &&& 0x0101#16 = expect 0 ∧ 0 < 1 := by decide

theorem test_witness_FirstStoresSample :
    ((running 1 0).Accepts 1 0x41200000 0x3F800000 ∧ (running 1 0).idx = 0) ∧
      ((running 2 0).Accepts 2 0x41200000 0x3F800000 ∧ (running 2 0).idx = 0) ∧
      ((running 32 31).Accepts 32 0x41200000 0x3F800000 ∧ (running 32 31).idx ≠ 0) ∧
      F32.isNaN (scaleProduct 0 0x41200000 0x3F800000) = false ∧
      F32.isFinite (scaleProduct 0 0x41200000 0x3F800000) = true ∧ 0x0100#16 &&& 0x0101#16 = 0x0100#16 := by
  decide

theorem test_witness_NextStoresSample :
    ((running 2 1).Accepts 2 0x41200000 0x3F800000 ∧ (running 2 1).idx ≠ 0) ∧
      ((running 32 31).Accepts 32 0x41200000 0x3F800000 ∧ (running 32 31).idx ≠ 0) ∧
      ((running 2 0).Accepts 2 0x41200000 0x3F800000 ∧ (running 2 0).idx = 0) ∧
      ((running 1 0).Inv ∧ (running 1 0).Accepts 1 0x41200000 0x3F800000) ∧ 0xABCD#16 &&& 0x0101#16 = 0x0101#16 :=
  ⟨by decide, by decide, by decide, ⟨test_witness_invariant.2.2.2.1, by decide⟩, by decide⟩

theorem test_witness_Bad00RaisesViolation :
    (running 32 31).Accepts 32 0x41200000 0x3F800000 ∧ (running 2 0).Accepts 2 0x41200000 0x3F800000 ∧
      0xFEFE#16 &&& 0x0101#16 = 0x0000#16 := by
  decide

theorem test_witness_Bad01RaisesViolation :
    (running 32 31).Accepts 32 0x41200000 0x3F800000 ∧ 0xFEFF#16 &&& 0x0101#16 = 0x0001#16 ∧
      decodeWord (wireWord 0xFE#8 0xFF#8) = .first 16383 ∧ decodeWord (wireWord 0xCD#8 0xAB#8) = .next 10982 := by
  decide

theorem test_witness_WordStopsWhenPushNotEnabled :
    (running 2 0).Inv ∧ (∃ t, exec (.bad00 0) (running 2 0) = .next t) ∧
      State.reset.Inv ∧ ¬ ∃ t, exec (.bad00 0) State.reset = .next t :=
  ⟨test_witness_invariant.2.1, ⟨_, rfl⟩, test_witness_invariant.1,
    fun ⟨_, h⟩ => by cases (show Host.Outcome.fault Fault.pushNotEnabled = .next _ from h)⟩

theorem test_witness_LegalityDependsOnPosition :
    (running 2 0).Accepts 2 0x41200000 0x3F800000 ∧ (running 2 1).Accepts 2 0x41200000 0x3F800000 ∧
      ((running 2 0).idx.toNat = 0 ∧ syncOf 0xFFFE#16 = 0x0100#16) ∧
      (0 < (running 2 1).idx.toNat ∧ syncOf 0xFFFF#16 = 0x0101#16) ∧
      ¬ ((running 2 1).idx.toNat = 0 ∧ syncOf 0xFFFE#16 = 0x0100#16 ∨
        0 < (running 2 1).idx.toNat ∧ syncOf 0xFFFE#16 = 0x0101#16) := by
  decide

/-- Each word kind has a next state to speak of, both ways. -/
theorem test_witness_FrameWordFrame :
    (∃ t, exec (.first 0) (running 2 0) = .next t ∧ t.phase = .run) ∧
      (∃ t, exec (.next 0) (running 2 1) = .next t ∧ t.phase = .run) ∧
      (∃ t, exec (.first 0) (running 2 1) = .next t ∧ t.phase = .faultSync) ∧
      (∃ t, exec (.next 0) (running 2 0) = .next t ∧ t.phase = .faultSync) ∧
      (∃ t, exec (.bad00 0) (running 2 0) = .next t) ∧ ∃ t, exec (.bad01 0) (running 2 0) = .next t :=
  ⟨⟨_, rfl, rfl⟩, ⟨_, rfl, rfl⟩, ⟨_, rfl, rfl⟩, ⟨_, rfl, rfl⟩, ⟨_, rfl⟩, ⟨_, rfl⟩⟩

/-- The last word of a row, and one before it. -/
theorem test_witness_AdvanceWrapsAtChannelCount :
    ((running 2 1).Inv ∧ (running 2 1).channelCount = some 2 ∧ (running 2 1).idx.toNat + 1 = 2 ∧
      ∃ t, exec (.next 5) (running 2 1) = .next t ∧ t.phase = .run) ∧
    ((running 2 0).Inv ∧ (running 2 0).channelCount = some 2 ∧ (running 2 0).idx.toNat + 1 ≠ 2 ∧
      ∃ t, exec (.first 5) (running 2 0) = .next t ∧ t.phase = .run) :=
  ⟨⟨test_witness_invariant.2.2.1, rfl, by decide, ⟨_, rfl, rfl⟩⟩,
    ⟨test_witness_invariant.2.1, rfl, by decide, ⟨_, rfl, rfl⟩⟩⟩

theorem test_witness_SampleDependsOnWordAndConstants :
    (running 2 1).fullScale = (running 32 31).fullScale ∧ (running 2 1).fudge = (running 32 31).fudge ∧
      ((running 2 1).idx = 0 ↔ (running 32 31).idx = 0) ∧
      (∃ t, exec (.next 5) (running 2 1) = .next t ∧ t.phase = .run) ∧
      ∃ t, exec (.next 5) (running 32 31) = .next t ∧ t.phase = .run :=
  ⟨rfl, rfl, by decide, ⟨_, rfl, rfl⟩, ⟨_, rfl, rfl⟩⟩

theorem test_witness_Binary32FormatIsReadByFields :
    ((0x80000001#32).extractLsb' 23 8).toNat = 0 ∧ 1 ≤ ((0x00800000#32).extractLsb' 23 8).toNat ∧
      ((0x7F7FFFFF#32).extractLsb' 23 8).toNat ≤ 254 ∧ 1 ≤ ((0x7F7FFFFF#32).extractLsb' 23 8).toNat := by
  decide

theorem test_witness_CentredCodeIsExact : (16383#14).toNat = (16382#14).toNat + 1 := by decide

theorem test_witness_IntegerFormEqualsCentredCode : (8192#14).toNat = 8192 := by decide

/-- 2^-149 times 0.5 is a tie: the product is 0 and 2^-149 is as near. -/
theorem test_witness_ProductRoundsToNearestEven :
    F32.isFinite 0x00000001 = true ∧ F32.isFinite 0x3F000000 = true ∧
      F32.isFinite (F32.fmul 0 0x00000001 0x3F000000) = true ∧
      ((F32.units 0x00000001 * F32.units 0x3F000000 : Int) -
          F32.units (F32.fmul 0 0x00000001 0x3F000000) * F32.unit).natAbs =
        ((F32.units 0x00000001 * F32.units 0x3F000000 : Int) - F32.units 0x00000001 * F32.unit).natAbs ∧
      F32.units 0x00000001 ≠ F32.units (F32.fmul 0 0x00000001 0x3F000000) := by
  decide

/-- 2^-149 / 2.0 is a tie, and so is 1.0 - 2^-25; -1.0 / 2.0 has a negative quotient. -/
theorem test_witness_QuotientAndDifferenceRoundToNearestEven :
    (F32.isFinite 0x00000001 = true ∧ F32.isFinite 0x40000000 = true ∧ F32.isZero 0x40000000 = false ∧
      F32.isFinite (F32.fdiv 0 0x00000001 0x40000000) = true ∧
      ((F32.units 0x00000001 * F32.unit : Int) -
          F32.units (F32.fdiv 0 0x00000001 0x40000000) * F32.units 0x40000000).natAbs =
        ((F32.units 0x00000001 * F32.unit : Int) - F32.units 0x00000001 * F32.units 0x40000000).natAbs ∧
      F32.units 0x00000001 ≠ F32.units (F32.fdiv 0 0x00000001 0x40000000)) ∧
    (F32.isFinite 0xBF800000 = true ∧ F32.isFinite (F32.fdiv 0 0xBF800000 0x40000000) = true) ∧
    F32.isFinite 0x3F800000 = true ∧ F32.isFinite 0x33000000 = true ∧
      F32.isFinite (F32.fsub 0 0x3F800000 0x33000000) = true ∧ F32.isFinite 0x3F7FFFFF = true ∧
      (F32.signedUnits 0x3F800000 - F32.signedUnits 0x33000000 -
          F32.signedUnits (F32.fsub 0 0x3F800000 0x33000000)).natAbs =
        (F32.signedUnits 0x3F800000 - F32.signedUnits 0x33000000 - F32.signedUnits 0x3F7FFFFF).natAbs ∧
      F32.signedUnits 0x3F7FFFFF ≠ F32.signedUnits (F32.fsub 0 0x3F800000 0x33000000) := by
  decide

theorem test_witness_MulByMinusOneFlipsSign : F32.isNaN 0x7F800000 = false ∧ F32.isNaN 0x80000000 = false := by decide

theorem test_witness_MulByOneAndByZero : F32.isNaN 0xFF800000 = false ∧ F32.isFinite 0x7F7FFFFF = true := by decide

theorem test_witness_MulByPositiveIsMonotone :
    F32.isFinite 0x00000001 = true ∧ 0 < F32.order 0x00000001 ∧ F32.isNaN 0xFF800000 = false ∧
      F32.isNaN 0x7F800000 = false ∧ F32.order 0xFF800000 ≤ F32.order 0x7F800000 := by
  decide

theorem test_witness_NaNOperandsGiveQuietNaN :
    (F32.isNaN 0x7F800001 = true ∨ F32.isNaN 0x3F800000 = true) ∧
      (F32.isInf 0xFF800000 = true ∧ F32.isZero 0x00000000 = true ∨
        F32.isZero 0xFF800000 = true ∧ F32.isInf 0x00000000 = true) := by
  decide

theorem test_witness_ZeroResultsCarrySigns :
    (F32.isFinite 0x80000000 = true ∧ F32.isFinite 0x7F7FFFFF = true ∧
      (F32.isZero 0x80000000 = true ∨ F32.isZero 0x7F7FFFFF = true)) ∧
    F32.isFinite (scaleProduct 0 0xC1200000 0x3F800000) = true ∧
    F32.isZero (scaleProduct 0 0x80000000 0x3F800000) = true := by
  decide

theorem test_witness_NaNConstantsGiveNaNResults :
    (F32.isNaN 0x7FC00000 = true ∨ F32.isNaN 0x3F800000 = true) ∧
      F32.isInf (scaleProduct 0 0x7F800000 0x3F800000) = true ∧
      (F32.isInf 0x7F800000 = true ∧ F32.isZero 0x80000000 = true ∨
        F32.isZero 0x7F800000 = true ∧ F32.isInf 0x80000000 = true) ∧
      ({ running 2 0 with fullScale := some 0x7FC00000#32 } : State).Accepts 2 0x7FC00000 0x3F800000 ∧
      ({ running 2 0 with fudge := some 0x7F800001#32 } : State).Accepts 2 0x41200000 0x7F800001 ∧
      F32.isNaN 0x7F800001 = true ∧ syncOk 0 0x0100 = true := by
  decide

theorem test_witness_OverflowGivesInfinity :
    (F32.isFinite 0x7F7FFFFF = true ∧ F32.isFinite 0x40000000 = true) ∧
      (F32.isInf 0xFF800000 = true ∧ F32.isZero 0x3F800000 = false ∧ F32.isNaN 0x3F800000 = false) ∧
      F32.isInf (scaleProduct 0 0x7F7FFFFF 0x40000000) = true ∧ (8191#14).toNat < 8192 ∧ 8192 < (8193#14).toNat ∧
      F32.isFinite (scaleProduct 0 0x7F7FFFFF 0x3F800000) = true ∧
      (running 2 1).Accepts 2 0x41200000 0x3F800000 ∧ syncOk (running 2 1).idx.toNat 0xFFFF = true := by
  decide

theorem test_witness_SubnormalsUnderflowGradually :
    F32.isFinite 0x00800000 = true ∧ F32.isFinite 0xBF7FF800 = true ∧
      F32.units 0x00800000 * F32.units 0xBF7FF800 < 2 ^ 23 * F32.unit ∧
      2 * (F32.units 0x00000001 * F32.units 0x3F000000) ≤ F32.unit := by
  decide

theorem test_witness_BoundaryCodes :
    F32.isNaN (F32.fmul 0 0x3F824DD3 0x41200000) = false ∧ F32.isFinite (F32.fmul 0 0x3F824DD3 0x41200000) = true := by
  decide

theorem test_witness_CalibrationRangeAndOrder :
    F32.isFinite (scaleProduct 0 0x41200000 0x3F800000) = true ∧ 0 < F32.order (scaleProduct 0 0x41200000 0x3F800000) ∧
      F32.isFinite (scaleProduct 0 0xC1200000 0x3F800000) = true ∧ F32.order (scaleProduct 0 0xC1200000 0x3F800000) < 0 ∧
      (1#14).toNat + (16383#14).toNat = 16384 ∧ 1#14 ≠ 8192#14 ∧ (8191#14).toNat < 8192 ∧ 8192 ≤ (8192#14).toNat := by
  decide

/-- 2^-102, the least magnitude of the statement, and 10.0. -/
theorem test_witness_CalibrationIsInjective :
    F32.isFinite (scaleProduct 0 0x0C800000 0x3F800000) = true ∧
      2 ^ 47 ≤ F32.units (scaleProduct 0 0x0C800000 0x3F800000) ∧
      2 ^ 47 ≤ F32.units (scaleProduct 0 0x41200000 0x3F800000) ∧
      calibrate 0 5 0x41200000 0x3F800000 = calibrate 0 5 0x41200000 0x3F800000 := by
  decide

/-- A row that decodes, and one whose word 1 does not fit while word 0 does. -/
theorem test_witness_RowFunctionMeaning :
    rowWf [0x0100#16, 0xFFFF#16] 2 = true ∧
      (∀ (j : Nat) (w : Word16), ([0x0100#16, 0xFFFF#16] : List Word16)[j]? = some w → syncOk j w = true) ∧
      rowWf [0x0100#16, 0xFFFE#16] 2 = true ∧ ([0x0100#16, 0xFFFE#16] : List Word16)[1]? = some 0xFFFE#16 ∧
      syncOk 1 0xFFFE = false ∧
      (∀ (i : Nat) (v : Word16), i < 1 → ([0x0100#16, 0xFFFE#16] : List Word16)[i]? = some v → syncOk i v = true) := by
  refine ⟨by decide, row_legal, by decide, by decide, by decide, fun i v hi hv => ?_⟩
  match i, hi, hv with
  | 0, _, hv => cases hv; decide

theorem test_witness_LanesAgreeWithRow : rowWf [0x0100#16, 0xFFFE#16] 2 = true ∧ rowWf [] 0 = true := by decide

/-- `FIRST 0; NEXT 16383` waits in the host's list, then `TAKE_ROW`. -/
theorem test_witness_PushedRowIsDecodedRow :
    ∃ out, State.Inv { running 2 0 with pending := [.push 0x0100#16, .push 0xFFFF#16, .takeRow] } ∧
      State.Accepts { running 2 0 with pending := [.push 0x0100#16, .push 0xFFFF#16, .takeRow] } 2 0x41200000 0x3F800000 ∧
      [HostOp.push 0x0100#16, .push 0xFFFF#16, .takeRow] = [0x0100#16, 0xFFFF#16].map .push ++ [.takeRow] ∧
      decodeRow binary32 0 [0x0100#16, 0xFFFF#16] 2 0x41200000 0x3F800000 = some (.ok out) :=
  ⟨_, test_witness_invariant.2.1, by decide, by decide, rfl⟩

theorem test_witness_PushedRowFaultsAsDecodedRow :
    State.Inv { running 2 0 with pending := [.push 0x0100#16, .push 0xFFFE#16] } ∧
      State.Accepts { running 2 0 with pending := [.push 0x0100#16, .push 0xFFFE#16] } 2 0x41200000 0x3F800000 ∧
      [HostOp.push 0x0100#16, .push 0xFFFE#16] = [0x0100#16, 0xFFFE#16].map .push ++ [] ∧
      decodeRow binary32 0 [0x0100#16, 0xFFFE#16] 2 0x41200000 0x3F800000 = some (.error ⟨1, 0xFFFE#16⟩) :=
  ⟨test_witness_invariant.2.1, by decide, by decide, rfl⟩

theorem test_witness_StreamOfRowsIsDeliveredInOrder :
    (running 2 0).Inv ∧ (running 2 0).Accepts 2 0x41200000 0x3F800000 ∧ (running 2 0).idx = 0 ∧
      ([.push 0x0100#16, .push 0xFFFF#16, .takeRow, .push 0x0100#16, .push 0xFFFF#16, .takeRow] : List HostOp) =
        ([[0x0100#16, 0xFFFF#16], [0x0100#16, 0xFFFF#16]] : List (List Word16)).flatMap
          (fun row => row.map .push ++ [.takeRow]) ++ [] ∧
      ∀ row ∈ ([[0x0100#16, 0xFFFF#16], [0x0100#16, 0xFFFF#16]] : List (List Word16)), rowWf row 2 = true ∧
        ∀ (j : Nat) (w : Word16), row[j]? = some w → syncOk j w = true := by
  refine ⟨test_witness_invariant.2.1, by decide, rfl, by decide, fun row h => ?_⟩
  have : row = [0x0100#16, 0xFFFF#16] := by simpa using h
  subst this
  exact ⟨by decide, row_legal⟩

/-- A device of two channels: four words of its stream are legal at their positions. -/
theorem stream_legal (p : Nat) (w : Word16) (h : ([0x0100#16, 0xFFFF#16, 0x8100#16, 0x0101#16] : List Word16)[p]? = some w) :
    syncOk (p % 2) w = true := by
  match p, h with
  | 0, h => cases h; decide
  | 1, h => cases h; decide
  | 2, h => cases h; decide
  | 3, h => cases h; decide

/-- The host configures 3 (its third word faults), or 1 (the word after its first row faults). -/
theorem test_witness_WrongChannelCountFaultPosition :
    (∀ (p : Nat) (w : Word16), ([0x0100#16, 0xFFFF#16, 0x8100#16, 0x0101#16] : List Word16)[p]? = some w →
      syncOk (p % 2) w = true) ∧
    ((running 3 0).Inv ∧ (running 3 0).Accepts 3 0x41200000 0x3F800000 ∧ 2 < (3#6).toNat ∧
      ([0x0100#16, 0xFFFF#16, 0x8100#16, 0x0101#16] : List Word16)[2]? = some 0x8100#16) ∧
    ((running 1 0).Inv ∧ (running 1 0).Accepts 1 0x41200000 0x3F800000 ∧ (1#6).toNat < 2 ∧
      ([0x0100#16, 0xFFFF#16, 0x8100#16, 0x0101#16] : List Word16)[1]? = some 0xFFFF#16) :=
  ⟨stream_legal, ⟨⟨by decide, by decide, by decide⟩, by decide⟩, ⟨test_witness_invariant.2.2.2.1, by decide⟩⟩

theorem test_witness_SlippedStreamFaultsAtIndexZero :
    (∀ (j : Nat) (w : Word16), ([0x0100#16, 0xFFFF#16] : List Word16)[j]? = some w → syncOk j w = true) ∧
      ([0x0100#16, 0xFFFF#16] : List Word16).flatMap wireBytes = 0x00#8 :: 0x01#8 :: 0xFF#8 :: [0xFF#8] ∧
      ([0x0100#16, 0xFFFF#16] : List Word16)[1]? = some 0xFFFF#16 ∧
      syncOk 0 0x0100 = true ∧ syncOk 0 0xFFFE = true :=
  ⟨row_legal, by decide, by decide, by decide, by decide⟩

theorem test_witness_ResetGivesResetState :
    violated.Faulted ∧ (∃ t, perform (.readReg 6) violated = .next t) ∧ HostOp.readReg 6 ≠ .reset ∧
      ∃ t, perform (.configure 2 0 0) (resetBlock violated) = .next t :=
  ⟨by decide, ⟨_, rfl⟩, by decide, ⟨_, rfl⟩⟩

/-- Counts 0 and 32, counts 33 and 255, and a second `CONFIGURE`. -/
theorem test_witness_ConfigureLatchesOnce :
    State.reset.phase = .unconf ∧ (0#8).toNat ≤ 32 ∧ (32#8).toNat ≤ 32 ∧ 32 < (33#8).toNat ∧ 32 < (255#8).toNat ∧
      (running 2 0).phase ≠ .unconf ∧
      ((running 0 0).Inv ∧ (running 0 0).phase = .run ∧ (running 0 0).channelCount = some 0 ∧
        HostOp.readReg 1 ≠ .reset ∧ ∃ t, perform (.readReg 1) (running 0 0) = .next t) :=
  ⟨rfl, by decide, by decide, by decide, by decide, by decide,
    test_witness_invariant.2.2.2.2.2.2.2.1, rfl, rfl, by decide, ⟨_, rfl⟩⟩

theorem test_witness_TakeRowHandsOverRow :
    ((complete 32).Inv ∧ (complete 32).phase = .run ∧ (complete 32).rowValid = true ∧
      (complete 32).channelCount = some 32 ∧ (31#5).toNat < (32#6).toNat) ∧
      ¬ ((running 2 1).phase = .run ∧ (running 2 1).rowValid = true) :=
  ⟨⟨test_witness_invariant.2.2.2.2.2.2.1, rfl, rfl, rfl, by decide⟩, by decide⟩

/-- Register 63 of a complete row of 32, the ends of the unassigned numbers, and the record of a fault. -/
theorem test_witness_ReadRegFollowsTable :
    (complete 32).Inv ∧ (readRegister 63 (complete 32)).isSome = true ∧ readRegister 5 (complete 32) = none ∧
      (7 ≤ (7#6).toNat ∧ (31#6).toNat ≤ 31) ∧ (63#6).toNat = 32 + (31#5).toNat ∧ (32#6).toNat = 32 + (0#5).toNat ∧
      ((complete 32).phase = .run ∧ (complete 32).rowValid = true ∧ (complete 32).channelCount = some 32 ∧
        (31#5).toNat < (32#6).toNat) ∧
      violated.Inv ∧ violated.phase = .faultSync :=
  ⟨test_witness_invariant.2.2.2.2.2.2.1, by decide, by decide, by decide, by decide, by decide, by decide,
    test_witness_invariant.2.2.2.2.2.2.2.2.1, rfl⟩

/-- A state of each row of the table, an enabled and a disabled operation. -/
theorem test_witness_EnabledExactlyAsTable :
    State.reset.Inv ∧ outOfRange.Inv ∧ enabled (.push 0) (running 2 0) = true ∧ enabled .takeRow (running 2 0) = false :=
  ⟨test_witness_invariant.1, test_witness_invariant.2.2.2.2.2.2.2.2.2, by decide, by decide⟩

theorem test_witness_HostOperationFrame :
    (∃ t, perform .reset violated = .next t) ∧ (∃ t, perform .takeRow (complete 2) = .next t) ∧
      (∃ t, perform (.readReg 0) violated = .next t) ∧ (∃ t, perform (.push 0x0100) (running 2 0) = .next t) ∧
      ∃ t, perform (.configure 33 0 0) State.reset = .next t :=
  ⟨⟨_, rfl⟩, ⟨_, rfl⟩, ⟨_, rfl⟩, ⟨_, rfl⟩, ⟨_, rfl⟩⟩

/-- Both causes happen. -/
theorem test_witness_OnlyTwoCausesOfFault :
    ((running 2 1).Inv ∧ faultLevel (running 2 1) = false ∧
      ∃ t, perform (.push 0x0100) (running 2 1) = .next t ∧ faultLevel t = true) ∧
    (State.reset.Inv ∧ faultLevel State.reset = false ∧
      ∃ t, perform (.configure 33 0 0) State.reset = .next t ∧ faultLevel t = true) ∧
    ((running 2 1).Accepts 2 0x41200000 0x3F800000 ∧ 0x0100#16 &&& 0x0101#16 ≠ expect (running 2 1).idx.toNat) ∧
    State.reset.phase = .unconf ∧ 32 < (33#8).toNat :=
  ⟨⟨test_witness_invariant.2.2.1, rfl, ⟨_, rfl, rfl⟩⟩, ⟨test_witness_invariant.1, rfl, ⟨_, rfl, rfl⟩⟩, by decide, rfl, by decide⟩

theorem test_witness_FaultsLastUntilReset :
    violated.Faulted ∧ outOfRange.Faulted ∧ HostOp.readReg 6 ≠ .reset ∧ ∃ t, perform (.readReg 6) violated = .next t :=
  ⟨by decide, by decide, by decide, ⟨_, rfl⟩⟩

theorem test_witness_ConfigurationIsFixedForSession :
    (running 2 1).phase ≠ .unconf ∧ HostOp.push 0x0101#16 ≠ .reset ∧ (running 2 1).channelCount = some 2 ∧
      (running 2 1).fullScale = some 0x41200000#32 ∧ (running 2 1).fudge = some 0x3F800000#32 ∧
      ∃ t, perform (.push 0x0101) (running 2 1) = .next t ∧ t.phase = .run :=
  ⟨by decide, by decide, rfl, rfl, rfl, ⟨_, rfl, rfl⟩⟩

theorem test_witness_CompleteRowHoldsBackWords :
    State.Inv { complete 2 with pending := [.push 0x0100#16] } ∧ (complete 2).rowValid = true ∧
      (∃ t, perform (.readReg 32) (complete 2) = .next t) ∧ HostOp.readReg 32 ≠ .takeRow ∧ HostOp.readReg 32 ≠ .reset :=
  ⟨test_witness_invariant.2.2.2.2.2.1, rfl, ⟨_, rfl⟩, by decide, by decide⟩

theorem test_witness_StepRunsDecodedWord :
    (State.reset.withFetchWord 16 0x9D21).pending = [.push (wireWord 0x21#8 0x9D#8)] ∧
      decode [0x21#8, 0x9D#8] = .ok (.next 10000, []) ∧ (Instr.next 10000).wf = true :=
  ⟨by decide, rfl, by decide⟩

/-- A `NUMERICS` other than the default (00_scope.md R8): its product is its second operand, so a sample is its `t2`. -/
def otherNumerics : DrawnNumerics := fun d => { binary32 d with fmul := fun _ b => b }

/-- Code 0 has `t2 = -1.0` (vector V3): under `FULL_SCALE = 10.0` the machine of another `NUMERICS` stores what that
record computes, not -10.0. -/
theorem test_step_with_other_numerics :
    (nextOf (stepWith otherNumerics { running 2 0 with pending := [.push 0x0100#16] })).map (fun t => readOut t.out 0) =
        some (some 0xBF800000#32) ∧
      (nextOf (execWith otherNumerics (.first 0) (running 2 0))).map (fun t => readOut t.out 0) =
        some (some 0xBF800000#32) := by
  decide

theorem test_witness_StepPerformsNextOperation :
    (State.reset.withFetchWord 16 0x0100).pending = [.push 0x0100#16] ∧ State.reset.pending = [] := by
  decide

theorem test_witness_EveryStepKeepsInvariant :
    State.Inv { State.reset with pending := [.configure 2 0x41200000#32 0x3F800000#32] } ∧
      (∃ t, step { State.reset with pending := [.configure 2 0x41200000#32 0x3F800000#32] } = .next t) ∧
      State.Inv { running 2 0 with pending := [.push 0x0100#16] } ∧
      ∃ t, stepWith otherNumerics { running 2 0 with pending := [.push 0x0100#16] } = .next t :=
  ⟨test_witness_invariant.1, ⟨_, rfl⟩, test_witness_invariant.2.1, ⟨_, rfl⟩⟩

theorem test_witness_EnabledStepNeverStops :
    State.Inv { running 2 0 with pending := [.push 0x0000#16] } ∧
      enabled (.push 0x0000#16) { running 2 0 with pending := [.push 0x0000#16] } = true :=
  ⟨test_witness_invariant.2.1, by decide⟩

/-- `rst` with other strobes; each strobe where its condition is true; a word and a row taken where it is not; the
outputs at both ends of their ranges. -/
theorem test_witness_ClockEdgeRendersOperations :
    ((running 2 0).Inv ∧ (⟨true, true, 33, 0, 0, true, 0, true⟩ : Pins).rst = true) ∧
      (State.reset.Inv ∧ (⟨false, true, 33, 0, 0, true, 0, true⟩ : Pins).cfgValid = true ∧ State.reset.phase = .unconf) ∧
      ((⟨false, true, 2, 0, 0, true, 0x0100, true⟩ : Pins).inValid = true ∧ inReady (running 2 0) = true) ∧
      ((complete 2).Inv ∧ (⟨false, true, 2, 0, 0, true, 0x0100, true⟩ : Pins).rowTake = true ∧
        rowValidOut (complete 2) = true) ∧
      (violated.Inv ∧ violated.phase ≠ .unconf ∧ inReady violated = false ∧ rowValidOut violated = false ∧
        violated.phase = .faultSync) ∧
      (enabled (.push 0x0000#16) (running 2 0) = true ∧ enabled (.push 0x0100#16) (running 2 0) = true) ∧
      ((complete 32).Inv ∧ rowValidOut (complete 32) = true ∧ (complete 32).channelCount = some 32 ∧
        (31#5).toNat < (32#6).toNat ∧ (0#5).toNat < (32#6).toNat) ∧
      regData 4 violated = some 2 :=
  ⟨⟨test_witness_invariant.2.1, rfl⟩, ⟨test_witness_invariant.1, rfl, rfl⟩, by decide,
    ⟨test_witness_invariant.2.2.2.2.2.1, rfl, rfl⟩,
    ⟨test_witness_invariant.2.2.2.2.2.2.2.2.1, by decide, by decide, rfl, rfl⟩, by decide,
    ⟨test_witness_invariant.2.2.2.2.2.2.1, rfl, rfl, by decide, by decide⟩, by decide⟩

theorem test_witness_ListingLinesStandForWords :
    16383 ≤ 16383 ∧ 16383 < 16384 ∧ 65535 < 65536 ∧ 255 < 256 ∧ 2 ^ 32 ≤ 4294967296 ∧ 63 < 64 ∧ 31 < 32 ∧
      (RealLit.bits 4294967295).wf = true ∧ (RealLit.decimal true 10 0).wf = true := by
  decide

end Sys2Proof.Tests
end

