-- ==== Sys2Proof/Proofs/Memory.lean ====
section
/-! PROOFS of the statements about 20_memory.md, and the facts about a complete row they rest on. -/

namespace Sys2Proof.Machine

/-! ## A complete row under the invariant -/

/-- Under the invariant a complete row stands only in `S_RUN`, with at least one channel and with every entry below the
count holding a value (42_row_and_host_ops.md R89). -/
theorem State.Inv.complete_row {s : State} (hinv : s.Inv) (hrow : s.rowValid = true) :
    ∃ n, s.phase = .run ∧ s.channelCount = some n ∧ 1 ≤ n.toNat ∧ n.toNat ≤ 32 ∧
      ∀ j : Fin 32, j.val < n.toNat → s.out[j].isSome = true := by
  obtain ⟨hblank, hrunning, hviolated⟩ := hinv
  have hphase : s.phase = .run := by
    cases hp : s.phase with
    | run => rfl
    | unconf =>
      obtain ⟨-, hno, -⟩ := hblank (.inl hp)
      simp [hrow] at hno
    | faultCfg =>
      obtain ⟨-, hno, -⟩ := hblank (.inr hp)
      simp [hrow] at hno
    | faultSync =>
      obtain ⟨-, -, hno, -⟩ := hviolated hp
      simp [hrow] at hno
  obtain ⟨⟨hsome, -, -, hmax⟩, -, -, hzero, -, -, hout⟩ := hrunning hphase
  obtain ⟨n, hn⟩ := Option.isSome_iff_exists.mp hsome
  have hcount : s.count = n.toNat := congrArg (fun c => (c.getD 0).toNat) hn
  have hfilled : s.filled = n.toNat := (if_pos hrow).trans hcount
  refine ⟨n, hphase, hn, Nat.one_le_iff_ne_zero.mpr fun h0 => ?_, hcount ▸ hmax, fun j hj => (hout j).2 (hfilled ▸ hj)⟩
  obtain ⟨-, hno⟩ := hzero (hcount.trans h0)
  simp [hrow] at hno

/-! ## Words -/

/-- `PUSH` is not enabled while a row stands complete (42_row_and_host_ops.md R84). -/
theorem pushCount_of_rowValid {s : State} (hrow : s.rowValid = true) : pushCount s = none := by
  simp [pushCount, hrow]

/-- A word stops where `PUSH` is not enabled. -/
theorem exec_of_pushCount_none {s : State} (h : pushCount s = none) (i : Instr) : exec i s = .fault .pushNotEnabled :=
  exec_eq_execWith ▸ execWith_of_pushCount_none h binary32 i

/-- The table enables every word in `S_RUN` with no complete row and a count above 0 (42_row_and_host_ops.md R89). -/
theorem enabled_push_of_ready {s : State} {n : Count} (hphase : s.phase = .run) (hrow : s.rowValid = false)
    (hn : s.channelCount = some n) (hpos : 1 ≤ n.toNat) (w : Word16) : enabled (.push w) s = true := by
  have hne : n ≠ 0#6 := fun h0 => by simp [h0] at hpos
  simp [enabled, tableRow, enabledIn, hphase, hrow, hn, hne]

/-! ## `TAKE_ROW` -/

/-- `TAKE_ROW` of a row whose entries below the count all hold values (42_row_and_host_ops.md R86). -/
theorem perform_takeRow_of_rowValues {s : State} {n : Count} {vs : List F32} (hphase : s.phase = .run)
    (hrow : s.rowValid = true) (hn : s.channelCount = some n) (hvs : rowValues s.out n.toNat = some vs) :
    perform .takeRow s = .next (addReply (.row vs) (releaseRow s)) := by
  simp [perform, performOn, performTakeRow, hphase, hrow, hn, hvs]

/-- Under the invariant `TAKE_ROW` hands a complete row over. -/
theorem State.Inv.perform_takeRow {s : State} (hinv : s.Inv) (hrow : s.rowValid = true) :
    ∃ vs, perform .takeRow s = .next (addReply (.row vs) (releaseRow s)) := by
  obtain ⟨n, hphase, hn, -, hmax, hout⟩ := hinv.complete_row hrow
  obtain ⟨vs, hvs, -⟩ := rowValues_of_isSome s.out n.toNat hmax hout
  exact ⟨vs, perform_takeRow_of_rowValues hphase hrow hn hvs⟩

/-! ## What leaves the block as it is -/

/-- A result the host receives is no item of the block (10_state.md R9). -/
theorem sameBlock_addReply (r : Reply) (s : State) : s.SameBlock (addReply r s) :=
  ⟨rfl, ⟨rfl, rfl, rfl⟩, rfl, rfl, rfl, rfl, rfl⟩

/-- While a configured block holds a complete row, every operation but `TAKE_ROW` and `RESET` leaves the block as it is:
`CONFIGURE` and words have no step, and a register read only gives the host its result. -/
theorem perform_sameBlock_of_rowValid {op : HostOp} {s t : State} (hphase : s.phase ≠ .unconf) (hrow : s.rowValid = true)
    (h : perform op s = .next t) (htake : op ≠ .takeRow) (hreset : op ≠ .reset) : s.SameBlock t := by
  rcases perform_next h with ⟨rfl, -⟩ | ⟨n, fs, ff, -, hun, -⟩ | ⟨n, fs, ff, -, hun, -⟩ | ⟨w, -, hexec⟩ |
    ⟨n, vs, rfl, -⟩ | ⟨r, v, -, -, rfl⟩
  · exact absurd rfl hreset
  · exact absurd hun hphase
  · exact absurd hun hphase
  · rw [exec_of_pushCount_none (pushCount_of_rowValid hrow)] at hexec
    cases hexec
  · exact absurd rfl htake
  · exact sameBlock_addReply (.register r v) s

/-! ## The statements -/

/-- Settles O53: a complete row disables words, and under the invariant it can be taken, which frees the block for
word 0 of the next row; of the other operations only register reads have a step. -/
theorem completeRowHoldsBackWords : Obligations.CompleteRowHoldsBackWords := by
  intro s hinv hrow
  obtain ⟨n, hphase, hn, hpos, -, -⟩ := hinv.complete_row hrow
  have hnone : pushCount s = none := pushCount_of_rowValid hrow
  refine ⟨exec_of_pushCount_none hnone, by simp [inReady, hnone], ?_, fun op t h htake hreset => ?_⟩
  · obtain ⟨vs, htaken⟩ := hinv.perform_takeRow hrow
    exact ⟨_, htaken, enabled_push_of_ready hphase rfl hn hpos⟩
  · exact perform_sameBlock_of_rowValid (by simp [hphase]) hrow h htake hreset

end Sys2Proof.Machine
end

/-! PROOFS of the statements about 30_encoding.md, and the facts about words, their two sync bits and their kinds that
they rest on. -/

namespace Sys2Proof

/-! ## Words and their fields -/

/-- The sync field holds bits 8 and 0 of the word (30_encoding.md R41). -/
theorem syncOf_eq_enc (w : Word16) : syncOf w = enc (w.getLsbD 8) (w.getLsbD 0) 0 := by
  ext i hi
  interval_cases i <;> simp [syncOf, Config.syncMask, enc]

/-- Every word is the encoding of its own three fields (30_encoding.md R45). -/
theorem enc_extract (w : Word16) : enc (w.getLsbD 8) (w.getLsbD 0) (extract w) = w := by
  ext i hi
  interval_cases i <;> simp [extract, enc]

/-- Whatever its kind, a decoded word carries the word's own sample code (30_encoding.md R42). -/
@[simp] theorem raw14_decodeWord (w : Word16) : (decodeWord w).raw14 = extract w := by
  unfold decodeWord
  split_ifs <;> rfl

/-- The kind of a word is read off its two sync bits (30_encoding.md R42). -/
theorem syncPair_decodeWord (w : Word16) : (decodeWord w).syncPair = (w.getLsbD 8, w.getLsbD 0) := by
  unfold decodeWord
  rw [syncOf_eq_enc]
  cases w.getLsbD 8 <;> cases w.getLsbD 0 <;> rfl

/-- Every word is the word of the instruction it decodes to (30_encoding.md R45). -/
theorem encode_decodeWord (w : Word16) : encode (decodeWord w) = w := by
  rw [encode, syncPair_decodeWord, raw14_decodeWord]
  exact enc_extract w

theorem decodeWord_eq_first_iff (w : Word16) : decodeWord w = .first (extract w) ↔ syncOf w = 0x0100#16 := by
  unfold decodeWord
  split_ifs <;> simp [*]

theorem decodeWord_eq_next_iff (w : Word16) : decodeWord w = .next (extract w) ↔ syncOf w = 0x0101#16 := by
  unfold decodeWord
  split_ifs <;> simp [*]

end Sys2Proof

namespace Sys2Proof.Machine

/-! ## Pushed words -/

/-- The validator passes a `FIRST` word at index 0 and a `NEXT` word above it (30_encoding.md R43, 40_frame_words.md R52). -/
theorem syncOk_iff (j : Nat) (w : Word16) :
    syncOk j w = true ↔ j = 0 ∧ syncOf w = 0x0100#16 ∨ 0 < j ∧ syncOf w = 0x0101#16 := by
  cases j <;> simp [syncOk, syncOf, expect, Config.syncFirst, Config.syncNext]

/-- The same on the decoded word, as `exec_next` speaks of it. -/
theorem syncOk_iff_decodeWord (j : Index) (w : Word16) :
    syncOk j.toNat w = true ↔
      j = 0 ∧ decodeWord w = .first (extract w) ∨ j ≠ 0 ∧ decodeWord w = .next (extract w) := by
  have hzero : j.toNat = 0 ↔ j = 0 := BitVec.toNat_inj (y := 0)
  rw [syncOk_iff, Nat.pos_iff_ne_zero, ne_eq, hzero, decodeWord_eq_first_iff, decodeWord_eq_next_iff]

/-- Where `PUSH` is enabled every word has a next state (42_row_and_host_ops.md R84). -/
theorem exists_exec_next_of_accepts {s : State} {n : Count} {fs ff : F32} (h : s.Accepts n fs ff) (i : Instr) :
    ∃ t, exec i s = .next t := by
  cases i with
  | first r =>
    simp only [exec, execFirst, execFirstWith, whenPushEnabled_of_accepts h, acceptSample_of_accepts h]
    split_ifs <;> exact ⟨_, rfl⟩
  | next r =>
    simp only [exec, execNext, execNextWith, whenPushEnabled_of_accepts h, acceptSample_of_accepts h]
    split_ifs <;> exact ⟨_, rfl⟩
  | bad00 r => exact ⟨_, whenPushEnabled_of_accepts h _⟩
  | bad01 r => exact ⟨_, whenPushEnabled_of_accepts h _⟩

/-- A pushed word that passes the validator is stored at `IDX`, and any other raises the violation of its index and
itself (42_row_and_host_ops.md R84). -/
theorem perform_push_of_accepts {s : State} {n : Count} {fs ff : F32} (h : s.Accepts n fs ff) (w : Word16) :
    perform (.push w) s = .next (if syncOk s.idx.toNat w
      then advance n (writeSample s.idx (calibrate (Config.nanDraw s.draws) (extract w) fs ff) s)
      else raiseSyncBitViolation w s) := by
  obtain ⟨t, ht⟩ := exists_exec_next_of_accepts h (decodeWord w)
  obtain ⟨m, hm, hcases⟩ := exec_next ht
  obtain rfl : n = m := Option.some.inj ((pushCount_of_accepts h).symm.trans hm)
  rw [raw14_decodeWord, encode_decodeWord] at hcases
  refine (ht : perform (.push w) s = .next t).trans (congrArg Host.Outcome.next ?_)
  rcases hcases with ⟨fs', ff', hfs, hff, hlegal, rfl⟩ | ⟨hfirst, hnext, rfl⟩
  · obtain ⟨-, -, -, -, hfs', hff'⟩ := h
    obtain rfl : fs' = fs := Option.some.inj (hfs.symm.trans hfs')
    obtain rfl : ff' = ff := Option.some.inj (hff.symm.trans hff')
    exact (if_pos ((syncOk_iff_decodeWord _ _).mpr hlegal)).symm
  · exact (if_neg fun hok => ((syncOk_iff_decodeWord _ _).mp hok).elim hfirst hnext).symm

/-! ## The statement -/

/-- Settles O14: the condition is the validator's, and `advance()` leaves the stored sample and the phase as they are. -/
theorem legalityDependsOnPosition : Obligations.LegalityDependsOnPosition := by
  intro w s n fs ff h
  rw [← syncOk_iff, perform_push_of_accepts h]
  refine ⟨fun hok => ⟨_, congrArg Host.Outcome.next (if_pos hok), ?_, ?_⟩,
    fun hbad => congrArg Host.Outcome.next (if_neg hbad)⟩
  · obtain ⟨hrun, -⟩ := h
    rw [advance_phase, writeSample_phase, hrun]
  · rw [advance_out, writeSample_out, readOut_writeOut_same, Option.isSome_some]

end Sys2Proof.Machine

/-! PROOFS of the statements about 40_frame_words.md: the sample code of a word and the check on it, what each word kind
does where `PUSH` is enabled, and the boundary codes of the calibration. -/

namespace Sys2Proof

/-! ## The sample code -/

/-- The two data fields, brought together without a gap (40_frame_words.md R53). -/
theorem extract_eq_append (w : Word16) : extract w = w.extractLsb' 9 7 ++ w.extractLsb' 1 7 := by
  refine BitVec.eq_of_getLsbD_eq fun i hi => ?_
  rw [BitVec.getLsbD_append]
  interval_cases i <;> simp [extract]

/-- The masks and shifts leave nothing above bit 13, so cutting to 14 bits loses nothing. -/
theorem setWidth_extract (w : Word16) :
    (extract w).setWidth 16 = ((w &&& 0xFE00#16) >>> 2) ||| ((w &&& 0x00FE#16) >>> 1) := by
  ext i hi
  interval_cases i <;> simp [extract]

/-- The sample code is read from the data bits alone (30_encoding.md R44). -/
theorem extract_and_dataBits (w : Word16) : extract (w &&& 0xFEFE#16) = extract w := by
  simp [extract, BitVec.and_assoc]

/-! ## Encoded instructions -/

/-- `enc` places the code where `extract` finds it (30_encoding.md R45). -/
@[simp] theorem extract_enc (s1 s0 : Bool) (r : Code14) : extract (enc s1 s0 r) = r := by
  ext i hi
  interval_cases i <;> simp [extract, enc]

/-- `enc` places the first sync bit in bit 8 (30_encoding.md R45). -/
theorem getLsbD_enc_eight (s1 s0 : Bool) (r : Code14) : (enc s1 s0 r).getLsbD 8 = s1 := by
  simp [enc]

/-- `enc` places the second sync bit in bit 0 (30_encoding.md R45). -/
theorem getLsbD_enc_zero (s1 s0 : Bool) (r : Code14) : (enc s1 s0 r).getLsbD 0 = s0 := by
  simp [enc]

/-- Every instruction is decoded from its own word (30_encoding.md R45). -/
@[simp] theorem decodeWord_encode (i : Instr) : decodeWord (encode i) = i := by
  have hcode : extract (encode i) = i.raw14 := extract_enc _ _ _
  have hsync : syncOf (encode i) = enc i.syncPair.1 i.syncPair.2 0 := by
    rw [syncOf_eq_enc, encode, getLsbD_enc_eight, getLsbD_enc_zero]
  rw [decodeWord, hcode, hsync]
  cases i <;> simp [Instr.syncPair, Instr.raw14, enc]

/-- A word is the word of whatever instruction it decodes to (30_encoding.md R45). -/
theorem encode_of_decodeWord_eq {w : Word16} {i : Instr} (h : decodeWord w = i) : encode i = w :=
  h ▸ encode_decodeWord w

theorem decodeWord_eq_bad00_iff (w : Word16) : decodeWord w = .bad00 (extract w) ↔ syncOf w = 0x0000#16 := by
  unfold decodeWord
  split_ifs <;> simp [*]

end Sys2Proof

namespace Sys2Proof.Machine

/-! ## A word where `PUSH` is enabled -/

/-- The positions at which a word kind is legal (30_encoding.md R43). -/
abbrev LegalAt (j : Index) (i : Instr) : Prop := j = 0 ∧ i = .first i.raw14 ∨ j ≠ 0 ∧ i = .next i.raw14

theorem legalAt_first_iff (j : Index) (r : Code14) : LegalAt j (.first r) ↔ j = 0 := by
  simp [LegalAt, Instr.raw14]

theorem legalAt_next_iff (j : Index) (r : Code14) : LegalAt j (.next r) ↔ j ≠ 0 := by
  simp [LegalAt, Instr.raw14]

theorem not_legalAt_bad00 (j : Index) (r : Code14) : ¬ LegalAt j (.bad00 r) := by
  simp

/-- A word's meaning is that of pushing its encoding: the sample is stored where the word is legal, and the violation
raised elsewhere. -/
theorem exec_of_accepts {s : State} {n : Count} {fs ff : F32} (h : s.Accepts n fs ff) (i : Instr) :
    exec i s = .next (if LegalAt s.idx i
      then advance n (writeSample s.idx (calibrate (Config.nanDraw s.draws) i.raw14 fs ff) s)
      else raiseSyncBitViolation (encode i) s) := by
  have hcode : extract (encode i) = i.raw14 := extract_enc _ _ _
  have hpush : exec (decodeWord (encode i)) s = _ := perform_push_of_accepts h (encode i)
  simp only [syncOk_iff_decodeWord, decodeWord_encode, hcode] at hpush
  exact hpush

/-- A legal word stores its value at `IDX` and advances, and changes nothing else of the block (40_frame_words.md R56,
R57; 42_row_and_host_ops.md R85). -/
theorem exec_stores_of_legalAt {s : State} {n : Count} {fs ff : F32} {i : Instr} (h : s.Accepts n fs ff)
    (hlegal : LegalAt s.idx i) :
    ∃ (t : State) (d : BitVec 23), exec i s = .next t ∧
      t.out = writeOut s.out s.idx (calibrate d i.raw14 fs ff) ∧
      t.idx = (if s.idx.toNat + 1 = n.toNat then 0 else s.idx + 1) ∧
      t.rowValid = decide (s.idx.toNat + 1 = n.toNat) ∧ t.phase = .run ∧ s.SameConfig t ∧
      t.errIndex = s.errIndex ∧ t.errWord = s.errWord := by
  have hexec := exec_of_accepts h i
  rw [if_pos hlegal] at hexec
  obtain ⟨hrun, hrow, -⟩ := h
  refine ⟨_, Config.nanDraw s.draws, hexec, ?_⟩
  by_cases hlast : s.idx.toNat + 1 = n.toNat <;> simp [rowCompletes, hlast, hrun, hrow, State.SameConfig]

/-- Any other word raises the violation that records it (30_encoding.md R43). -/
theorem exec_violates_of_not_legalAt {s : State} {n : Count} {fs ff : F32} {i : Instr} (h : s.Accepts n fs ff)
    (hillegal : ¬ LegalAt s.idx i) : exec i s = .next (raiseSyncBitViolation (encode i) s) :=
  (exec_of_accepts h i).trans (congrArg Host.Outcome.next (if_neg hillegal))

theorem exec_next_of_idx_eq_zero {s : State} {n : Count} {fs ff : F32} (h : s.Accepts n fs ff) (hidx : s.idx = 0)
    (r : Code14) : exec (.next r) s = .next (raiseSyncBitViolation (encode (.next r)) s) :=
  exec_violates_of_not_legalAt h fun hlegal => (legalAt_next_iff _ r).mp hlegal hidx

theorem exec_bad00_of_accepts {s : State} {n : Count} {fs ff : F32} (h : s.Accepts n fs ff) (r : Code14) :
    exec (.bad00 r) s = .next (raiseSyncBitViolation (encode (.bad00 r)) s) :=
  exec_violates_of_not_legalAt h (not_legalAt_bad00 _ r)

/-- Under the invariant a session of one channel expects word 0 only (42_row_and_host_ops.md R89). -/
theorem State.Inv.idx_eq_zero_of_one_channel {s : State} {fs ff : F32} (hinv : s.Inv) (h : s.Accepts 1 fs ff) :
    s.idx = 0 := by
  obtain ⟨-, hrunning, -⟩ := hinv
  obtain ⟨hrun, -, hcount, -⟩ := h
  obtain ⟨-, -, -, -, hlt, -⟩ := hrunning hrun
  have hone : s.count = 1 := by simp [State.count, hcount]
  rw [hone] at hlt
  exact BitVec.eq_of_toNat_eq (Nat.lt_one_iff.mp (hlt le_rfl))

end Sys2Proof.Machine

namespace Sys2Proof.Machine.F32

/-! ## Products with one and with zero -/

/-- A pattern that is no NaN is an infinity or finite (41_numerics.md R63). -/
theorem isInf_or_isFinite_of_not_isNaN {x : F32} (h : isNaN x = false) : isInf x = true ∨ isFinite x = true := by
  simp only [isNaN, isInf, isFinite, decide_eq_false_iff_not, decide_eq_true_eq] at *
  omega

/-- Multiplication by a value of magnitude one keeps the magnitude of a value that is no NaN, its bits included, and
takes the exclusive or of the signs (41_numerics.md R75). -/
theorem fmul_of_units_eq_unit {d : BitVec 23} {x y : F32} (hx : isNaN x = false) (hy : isFinite y = true)
    (hone : units y = unit) : fmul d x y = pack (sign x ^^ sign y) (magBits x) := by
  rcases isInf_or_isFinite_of_not_isNaN hx with hinf | hfin
  · have hmag : magBits x = infBits := of_decide_eq_true hinf
    have hx0 : isZero x = false := by simp [isZero, hmag, infBits]
    have hy0 : isZero y = false := by
      refine decide_eq_false fun h0 => ?_
      rw [units, h0] at hone
      exact absurd hone (by decide)
    simp [fmul, hx, isNaN_of_isFinite hy, hinf, hx0, hy0, hmag]
  · rw [fmul_finite hfin hy, hone, units, roundMag_of_units _ _ unit_pos (of_decide_eq_true hfin).le]

/-- Multiplication of a value that is no NaN by -1.0 flips its sign (41_numerics.md R75, N-NEG). -/
theorem fmul_negOne {d : BitVec 23} {x : F32} (hx : isNaN x = false) : fmul d x 0xBF800000#32 = neg x := by
  rw [fmul_of_units_eq_unit hx (by decide) (by decide), neg_eq_pack, show sign 0xBF800000#32 = true by decide,
    Bool.xor_true]

/-- A finite value times `+0.0` is a zero (41_numerics.md R75, N-ZERO). -/
theorem isZero_fmul_zero {d : BitVec 23} {x : F32} (hx : isFinite x = true) :
    isZero (fmul d x 0x00000000#32) = true := by
  rw [isZero, magBits_fmul_finite hx (by decide), show units 0x00000000#32 = 0 by decide, Nat.mul_zero]
  decide

end Sys2Proof.Machine.F32

namespace Sys2Proof.Machine

/-! ## The boundary codes -/

theorem centredInteger_least : centredInteger 0 = 0xBF800000#32 := by decide

theorem centredInteger_middle : centredInteger 8192 = 0x00000000#32 := by decide

theorem centredInteger_greatest : centredInteger 16383 = 0x3F7FF800#32 := by decide

/-- The centred code is `(r - 8192) / 8192` exactly (40_frame_words.md R60). -/
theorem signedUnits_centredWith (d : BitVec 23) (r : Code14) :
    F32.signedUnits (centredWith (binary32 d) r) * 8192 = ((r.toNat : Int) - 8192) * F32.unit := by
  obtain ⟨hunits, -, hsign⟩ := centredInteger_spec r
  have hsigned : F32.signedUnits (centredInteger r) = ((r.toNat : Int) - 8192) * 2 ^ 136 := by
    rw [F32.signedUnits, hunits, hsign]
    by_cases hr : r.toNat < 8192
    · rw [if_pos (decide_eq_true hr)]
      push_cast
      rw [abs_of_neg (by omega), ← neg_mul, neg_neg]
    · rw [if_neg (by simpa using hr)]
      push_cast
      rw [abs_of_nonneg (by omega)]
  rw [centredWith_eq, hsigned, mul_assoc]
  rfl

theorem calibrate_least (d : BitVec 23) (fs ff : F32) :
    calibrate d 0 fs ff = F32.fmul d (F32.fmul d ff fs) 0xBF800000#32 := by
  rw [calibrate_eq, centredInteger_least]

theorem calibrate_middle (d : BitVec 23) (fs ff : F32) :
    calibrate d 8192 fs ff = F32.fmul d (F32.fmul d ff fs) 0x00000000#32 := by
  rw [calibrate_eq, centredInteger_middle]

theorem calibrate_greatest (d : BitVec 23) (fs ff : F32) :
    calibrate d 16383 fs ff = F32.fmul d (F32.fmul d ff fs) 0x3F7FF800#32 := by
  rw [calibrate_eq, centredInteger_greatest]

/-- With the constants of the rules' examples `K` is ten (40_frame_words.md R56, R57). -/
theorem calibrate_ten_one (d : BitVec 23) (r : Code14) :
    calibrate d r 0x41200000#32 0x3F800000#32 = F32.fmul d 0x41200000#32 (centredInteger r) := by
  have hK : F32.fmul d 0x3F800000#32 0x41200000#32 = 0x41200000#32 := by
    rw [F32.fmul_finite (by decide) (by decide)]
    decide
  exact (calibrate_eq d r _ _).trans (congrArg (F32.fmul d · (centredInteger r)) hK)

/-! ## The statements -/

/-- Settles O6: bit by bit, and the sync bits are masked away. -/
theorem extractRepacksDataBits : Obligations.ExtractRepacksDataBits := by
  refine fun w => ⟨extract_eq_append w, Nat.le_of_lt_succ (extract w).isLt, ?_, fun v hv => ?_⟩
  · rw [← setWidth_extract, BitVec.toNat_setWidth_of_le (by decide)]
  · rw [← extract_and_dataBits v, hv, extract_and_dataBits]

/-- Settles O7: the branches of the expected pattern and of the check. -/
theorem syncCheckComesFirst : Obligations.SyncCheckComesFirst := by
  refine ⟨⟨rfl, fun j hj => if_neg hj.ne'⟩, fun j w => rfl, fun N j w fs ff => ⟨fun hne => ?_, fun heq => ?_⟩⟩
  · exact if_neg fun hok => hne (of_decide_eq_true hok)
  · exact if_pos (decide_eq_true heq)

/-- Settles O33: the centred code is exactly -1, zero and 8191/8192 at the three codes, and `K` is multiplied by it. -/
theorem boundaryCodes : Obligations.BoundaryCodes := by
  refine fun d fs ff => ⟨calibrate_least d fs ff, fun hK => ?_, calibrate_middle d fs ff, fun hK => ?_,
    calibrate_greatest d fs ff, signedUnits_centredWith d⟩
  · exact (calibrate_least d fs ff).trans (F32.fmul_negOne hK)
  · exact (congrArg F32.isZero (calibrate_middle d fs ff)).trans (F32.isZero_fmul_zero hK)

/-- Settles O8: `FIRST` is legal exactly at index 0, where `advance()` completes the row of one channel; the corner
codes are those of `boundaryCodes`. -/
theorem firstStoresSample : Obligations.FirstStoresSample := by
  refine ⟨fun s n fs ff r h hidx => ?_, fun s n fs ff r h hidx => ?_, fun d fs ff => ?_⟩
  · have hone : (0 : Index).toNat + 1 = n.toNat ↔ n = 1 := by
      rw [eq_comm, ← BitVec.toNat_inj]
      rfl
    have hstores := exec_stores_of_legalAt h ((legalAt_first_iff _ r).mpr hidx)
    simp only [hidx, hone] at hstores
    exact hstores
  · exact exec_violates_of_not_legalAt h fun hlegal => hidx ((legalAt_first_iff _ r).mp hlegal)
  · obtain ⟨-, hleast, -, hmiddle, hgreatest, -⟩ := boundaryCodes d fs ff
    refine ⟨hleast, hmiddle, hgreatest, ?_, fun w hw => ?_⟩
    · rw [calibrate_ten_one, centredInteger_least]
      exact F32.fmul_negOne (by decide)
    · have hfirst := (decodeWord_eq_first_iff w).mpr hw
      have hword : encode (.first (extract w)) = w := encode_of_decodeWord_eq hfirst
      exact ⟨hfirst, hword⟩

/-- Settles O9: `NEXT` is legal exactly above index 0, which a session of one channel never reaches. -/
theorem nextStoresSample : Obligations.NextStoresSample := by
  refine ⟨fun s n fs ff r h hidx => exec_stores_of_legalAt h ((legalAt_next_iff _ r).mpr hidx),
    fun s n fs ff r h hidx => ?_, fun s fs ff r hinv h => ?_, fun w hw => ?_, fun d => ?_⟩
  · rw [exec_next_of_idx_eq_zero h hidx, raiseSyncBitViolation, hidx]
    rfl
  · exact ⟨_, exec_next_of_idx_eq_zero h (hinv.idx_eq_zero_of_one_channel h) r, rfl⟩
  · have hnext := (decodeWord_eq_next_iff w).mpr hw
    have hword : encode (.next (extract w)) = w := encode_of_decodeWord_eq hnext
    exact ⟨hnext, hword⟩
  · rw [calibrate_ten_one, centredInteger_greatest, F32.fmul_finite (by decide) (by decide)]
    decide

/-- Settles O10: `BAD00` is legal at no index, and a word with both sync bits clear is one. -/
theorem bad00RaisesViolation : Obligations.Bad00RaisesViolation := by
  refine ⟨fun s n fs ff r h => exec_bad00_of_accepts h r, fun s n fs ff w h hw => ?_, by decide⟩
  have hbad := (decodeWord_eq_bad00_iff w).mpr hw
  have hword : encode (.bad00 (extract w)) = w := encode_of_decodeWord_eq hbad
  have hexec := exec_bad00_of_accepts h (extract w)
  rw [hword, ← hbad] at hexec
  exact ⟨hbad, hexec⟩

end Sys2Proof.Machine

/-! PROOFS of the statements about 41_numerics.md: what the fields of a pattern say, products with zeros and NaNs, and
underflow. -/

namespace Sys2Proof.Machine.F32

/-! ## The fields of a pattern -/

/-- Bits 30:23 are the exponent field (41_numerics.md R63). -/
theorem toNat_extractLsb'_exponent (x : F32) : (x.extractLsb' 23 8).toNat = expField x := by
  rw [BitVec.extractLsb'_toNat, Nat.shiftRight_eq_div_pow, expField, magBits]
  omega

/-- Bits 22:0 are the fraction field (41_numerics.md R63). -/
theorem toNat_extractLsb'_fraction (x : F32) : (x.extractLsb' 0 23).toNat = fracField x := by
  rw [BitVec.extractLsb'_toNat, Nat.shiftRight_zero, fracField, magBits]
  omega

/-- Bit 31 is the sign (41_numerics.md R63). -/
theorem getLsbD_signBit (x : F32) : x.getLsbD 31 = sign x :=
  (BitVec.msb_eq_getLsbD_last x).symm.trans (BitVec.msb_eq_decide x)

/-- Bit 22, which tells quiet NaNs from signalling ones, is the top bit of the fraction (41_numerics.md R63). -/
theorem getLsbD_quietBit (x : F32) : x.getLsbD 22 = decide (2 ^ 22 ≤ fracField x) := by
  have hbit : (x.extractLsb' 0 23).getLsbD 22 = x.getLsbD 22 := by simp
  rw [← hbit, ← toNat_extractLsb'_fraction]
  exact (BitVec.msb_eq_getLsbD_last _).symm.trans (BitVec.msb_eq_decide _)

theorem expField_le (x : F32) : expField x ≤ 255 :=
  Nat.le_of_lt_succ (Nat.div_lt_of_lt_mul (magBits_lt x))

theorem fracField_lt (x : F32) : fracField x < 2 ^ 23 := Nat.mod_lt _ (by decide)

/-- The two fields make up the magnitude bits. -/
theorem magBits_eq_fields (x : F32) : magBits x = expField x * 2 ^ 23 + fracField x :=
  (Nat.div_add_mod' (magBits x) (2 ^ 23)).symm

/-! ## The class, by the fields -/

/-- The table of 41_numerics.md R63: the exponent field `e` and the fraction field `f` of each class. -/
def Class.HasFields : Class → Nat → Nat → Prop
  | .zero, e, f => e = 0 ∧ f = 0
  | .subnormal, e, f => e = 0 ∧ f ≠ 0
  | .normal, e, _ => 1 ≤ e ∧ e ≤ 254
  | .infinite, e, f => e = 255 ∧ f = 0
  | .quietNaN, e, f => (e = 255 ∧ f ≠ 0) ∧ 2 ^ 22 ≤ f
  | .signallingNaN, e, f => (e = 255 ∧ f ≠ 0) ∧ ¬ 2 ^ 22 ≤ f

/-- The branches of `classify` are the rows of the table, and the rows exclude each other (41_numerics.md R63). -/
theorem classify_eq_iff (x : F32) (c : Class) : classify x = c ↔ c.HasFields (expField x) (fracField x) := by
  have he := expField_le x
  unfold classify
  split_ifs <;> cases c <;> simp only [Class.HasFields, reduceCtorEq, true_iff, false_iff] <;> omega

theorem isNaN_iff_fields (x : F32) : isNaN x = true ↔ expField x = 255 ∧ fracField x ≠ 0 := by
  have he := expField_le x
  have hf := fracField_lt x
  rw [isNaN, decide_eq_true_eq, magBits_eq_fields, infBits]
  omega

theorem isInf_iff_fields (x : F32) : isInf x = true ↔ expField x = 255 ∧ fracField x = 0 := by
  have hf := fracField_lt x
  rw [isInf, decide_eq_true_eq, magBits_eq_fields, infBits]
  omega

theorem isFinite_iff_fields (x : F32) : isFinite x = true ↔ expField x ≠ 255 := by
  have he := expField_le x
  have hf := fracField_lt x
  rw [isFinite, decide_eq_true_eq, magBits_eq_fields, infBits]
  omega

theorem isZero_iff_fields (x : F32) : isZero x = true ↔ expField x = 0 ∧ fracField x = 0 := by
  rw [isZero, decide_eq_true_eq, magBits_eq_fields]
  omega

/-! ## The value, by the fields -/

/-- A zero or a subnormal is its fraction in units of 2^-149 (41_numerics.md R63). -/
theorem units_of_expField_eq_zero {x : F32} (he : expField x = 0) : units x = fracField x := by
  rw [units, magBits_eq_fields, he, Nat.zero_mul, Nat.zero_add, unitsOfMag_lt (fracField_lt x)]

/-- A pattern with an exponent field has the hidden bit above its fraction (41_numerics.md R63). -/
theorem units_of_expField_pos {x : F32} (he : 1 ≤ expField x) :
    units x = (2 ^ 23 + fracField x) * 2 ^ (expField x - 1) := by
  obtain ⟨k, hk⟩ := Nat.exists_eq_add_of_le' he
  rw [units, magBits_eq_fields, hk, unitsOfMag_normal k _ (fracField_lt x), Nat.add_sub_cancel]

/-! ## Products that are NaNs -/

/-- A NaN operand makes the product the drawn quiet NaN (41_numerics.md R71). -/
theorem fmul_of_isNaN {d : BitVec 23} {a b : F32} (h : isNaN a = true ∨ isNaN b = true) : fmul d a b = quietNaN d :=
  if_pos (Bool.or_eq_true_iff.mpr h)

/-- An infinity times a zero is the drawn quiet NaN (41_numerics.md R71). -/
theorem fmul_inf_zero {d : BitVec 23} {a b : F32}
    (h : isInf a = true ∧ isZero b = true ∨ isZero a = true ∧ isInf b = true) : fmul d a b = quietNaN d := by
  unfold fmul
  rw [if_pos (c := (isInf a && isZero b || isZero a && isInf b) = true) (by simpa using h), ite_self]

/-! ## Products that are zeros -/

theorem isFinite_of_isZero {x : F32} (h : isZero x = true) : isFinite x = true := by
  rw [isFinite, of_decide_eq_true h]
  decide

theorem isZero_iff_units (x : F32) : isZero x = true ↔ units x = 0 := by
  rw [isZero, decide_eq_true_eq, units]
  exact ⟨fun h => congrArg unitsOfMag h, fun h => unitsOfMag_inj h⟩

/-- The zero with a given sign bit. -/
theorem pack_zero (s : Bool) : pack s 0 = if s = true then 0x80000000#32 else 0x00000000#32 := by
  cases s <;> rfl

/-- A finite value times a zero is a zero, of the signs' exclusive or (41_numerics.md R70). -/
theorem fmul_zero {d : BitVec 23} {a b : F32} (ha : isFinite a = true) (hb : isFinite b = true)
    (h : isZero a = true ∨ isZero b = true) :
    fmul d a b = if (sign a ^^ sign b) = true then 0x80000000#32 else 0x00000000#32 := by
  have hprod : units a * units b = 0 := by
    rw [Nat.mul_eq_zero, ← isZero_iff_units, ← isZero_iff_units]
    exact h
  have hround : roundMag 0 unit = 0 := by decide
  rw [fmul_finite ha hb, hprod, hround, pack_zero]

/-! ## Gradual underflow -/

/-- Below 2^24 units the unit in the last place is the least subnormal, so the magnitude is rounded to an integer
of units (41_numerics.md R73). -/
theorem rawMag_of_lt {num den : Nat} (h : num < 2 ^ 24 * den) : rawMag num den = roundDiv num den := by
  have hlt : num / den < 2 ^ 24 := Nat.div_lt_of_lt_mul (by rwa [Nat.mul_comm])
  have hexp : ulpExp (num / den) = 0 := by
    by_contra hne
    have hle := (ulpExp_spec (num / den)).2 hne
    have hpow : 2 ^ 24 ≤ 2 ^ (23 + ulpExp (num / den)) := Nat.pow_le_pow_right (by decide) (by omega)
    omega
  rw [rawMag, hexp, Nat.zero_mul, Nat.zero_add, Nat.pow_zero, Nat.mul_one]

/-- A magnitude is rounded to zero exactly up to half the least subnormal, the tie included (41_numerics.md R73). -/
theorem rawMag_eq_zero_iff {num den : Nat} (hd : 0 < den) : rawMag num den = 0 ↔ 2 * num ≤ den := by
  rcases Nat.lt_or_ge num den with h | h
  · rw [rawMag_of_lt (by omega), roundDiv, Nat.div_eq_of_lt h, Nat.mod_eq_of_lt h]
    split <;> omega
  · have hone : 1 ≤ rawMag num den := calc
      1 = rawMag (unitsOfMag 1 * den) den := (rawMag_of_units 1 den hd).symm
      _ ≤ rawMag num den := rawMag_mono ((Nat.one_mul den).trans_le h)
    omega

/-- Rounding a quotient to an integer moves it by at most a half. -/
theorem roundDiv_error (a d : Nat) (hd : 0 < d) : 2 * ((a : Int) - roundDiv a d * d).natAbs ≤ d := by
  obtain ⟨q, r, ha, hlt, ⟨hround, hr⟩ | ⟨hround, hr⟩⟩ := roundDiv_cases a d hd
  · have herr : (a : Int) - roundDiv a d * d = r := by rw [hround, ha]; push_cast; ring
    omega
  · have herr : (a : Int) - roundDiv a d * d = r - d := by rw [hround, ha]; push_cast; ring
    omega

theorem isZero_fmul_iff {d : BitVec 23} {a b : F32} (ha : isFinite a = true) (hb : isFinite b = true) :
    isZero (fmul d a b) = true ↔ 2 * (units a * units b) ≤ unit := by
  have hmin : roundMag (units a * units b) unit = 0 ↔ rawMag (units a * units b) unit = 0 := by
    rw [roundMag_eq, infBits]
    omega
  rw [isZero, magBits_fmul_finite ha hb, decide_eq_true_eq, hmin, rawMag_eq_zero_iff unit_pos]

/-- Below the normal range a product is its exact value rounded to an integer of units (41_numerics.md R73). -/
theorem units_fmul_of_lt {d : BitVec 23} {a b : F32} (ha : isFinite a = true) (hb : isFinite b = true)
    (h : units a * units b < 2 ^ 23 * unit) : units (fmul d a b) = roundDiv (units a * units b) unit := by
  have hle : roundDiv (units a * units b) unit ≤ 2 ^ 23 := by
    have hdiv : units a * units b / unit < 2 ^ 23 := (Nat.div_lt_iff_lt_mul unit_pos).mpr h
    have hround := roundDiv_bounds (units a * units b) unit
    omega
  have hraw : rawMag (units a * units b) unit = roundDiv (units a * units b) unit :=
    rawMag_of_lt (h.trans (by decide))
  rw [units, magBits_fmul_finite ha hb, roundMag_eq, hraw, min_eq_right (hle.trans (by decide))]
  simpa using unitsOfMag_scaled 0 _ (hle.trans (by decide)) (absurd rfl)

end Sys2Proof.Machine.F32

namespace Sys2Proof.Machine

/-! ## Special constants -/

theorem isFinite_centredInteger (r : Code14) : F32.isFinite (centredInteger r) = true := by
  obtain ⟨-, hfin, -⟩ := centredInteger_spec r
  exact hfin

/-- When `K` is a NaN, every code gives a quiet NaN (41_numerics.md R71). -/
theorem calibrate_of_isNaN {d : BitVec 23} {fs ff : F32} (hK : F32.isNaN (scaleProduct d fs ff) = true) (r : Code14) :
    F32.classify (calibrate d r fs ff) = .quietNaN := by
  have hprod : calibrate d r fs ff = F32.quietNaN d := (calibrate_eq d r fs ff).trans (F32.fmul_of_isNaN (.inl hK))
  rw [hprod, F32.classify_quietNaN]

/-- When `K` is an infinity, the middle code gives a quiet NaN (41_numerics.md R71). -/
theorem calibrate_middle_of_isInf {d : BitVec 23} {fs ff : F32} (hK : F32.isInf (scaleProduct d fs ff) = true) :
    F32.classify (calibrate d 8192 fs ff) = .quietNaN := by
  have hprod : calibrate d 8192 fs ff = F32.quietNaN d :=
    (calibrate_middle d fs ff).trans (F32.fmul_inf_zero (.inl ⟨hK, by decide⟩))
  rw [hprod, F32.classify_quietNaN]

/-- A NaN constant makes `K` a NaN (41_numerics.md R71). -/
theorem isNaN_scaleProduct {d : BitVec 23} {fs ff : F32} (h : F32.isNaN fs = true ∨ F32.isNaN ff = true) :
    F32.isNaN (scaleProduct d fs ff) = true := by
  rw [scaleProduct, F32.fmul_of_isNaN h.symm, F32.isNaN_quietNaN]

/-- An infinite constant with a zero one makes `K` a NaN (41_numerics.md R71). -/
theorem isNaN_scaleProduct_inf_zero {d : BitVec 23} {fs ff : F32}
    (h : F32.isInf fs = true ∧ F32.isZero ff = true ∨ F32.isZero fs = true ∧ F32.isInf ff = true) :
    F32.isNaN (scaleProduct d fs ff) = true := by
  rw [scaleProduct, F32.fmul_inf_zero (h.symm.imp And.symm And.symm), F32.isNaN_quietNaN]

/-- With the least subnormal and one as constants, `K` is the least subnormal (41_numerics.md R73). -/
theorem calibrate_leastSubnormal (d : BitVec 23) (r : Code14) :
    calibrate d r 0x00000001#32 0x3F800000#32 = F32.fmul d 0x00000001#32 (centredInteger r) := by
  have hK : F32.fmul d 0x3F800000#32 0x00000001#32 = 0x00000001#32 := by
    rw [F32.fmul_finite (by decide) (by decide)]
    decide
  exact (calibrate_eq d r _ _).trans (congrArg (F32.fmul d · (centredInteger r)) hK)

/-! ## The statements -/

/-- Settles O18: the fields are rewritten to the model's own, and each clause is the lemma about them. -/
theorem binary32FormatIsReadByFields : Obligations.Binary32FormatIsReadByFields := by
  refine ⟨fun x => ?_, by decide, by decide, by decide⟩
  rw [F32.toNat_extractLsb'_exponent, F32.toNat_extractLsb'_fraction, F32.getLsbD_signBit, F32.getLsbD_quietBit,
    decide_eq_true_eq, decide_eq_false_iff_not, F32.isNaN_iff_fields]
  exact ⟨rfl, F32.classify_eq_iff x .zero, F32.classify_eq_iff x .infinite, .rfl, F32.classify_eq_iff x .quietNaN,
    F32.classify_eq_iff x .signallingNaN, F32.isInf_iff_fields x, F32.isFinite_iff_fields x, F32.isZero_iff_fields x,
    F32.classify_eq_iff x .subnormal, F32.classify_eq_iff x .normal, rfl, F32.units_of_expField_eq_zero,
    fun he _ => F32.units_of_expField_pos he⟩

/-- Settles O28: each is a product with a zero, either `K` or the centred code. -/
theorem zeroResultsCarrySigns : Obligations.ZeroResultsCarrySigns := by
  refine ⟨fun d a b => F32.fmul_zero, fun d r fs ff => ⟨fun hK => ?_, fun hK => ?_⟩⟩
  · have hzero := F32.fmul_zero (d := d) hK (b := 0x00000000#32) (by decide) (.inr (by decide))
    rw [show F32.sign 0x00000000#32 = false by decide, Bool.xor_false] at hzero
    exact (calibrate_middle d fs ff).trans hzero
  · obtain ⟨-, -, hsign⟩ := centredInteger_spec r
    rw [calibrate_eq, ← hsign]
    exact F32.fmul_zero (F32.isFinite_of_isZero hK) (isFinite_centredInteger r) (.inl hK)

/-- Settles O29: a NaN constant makes `K` a NaN, which every product keeps, and the word is stored like any other. -/
theorem nanConstantsGiveNaNResults : Obligations.NaNConstantsGiveNaNResults := by
  refine ⟨fun d r fs ff => ⟨fun h => ?_, calibrate_middle_of_isInf, fun h => ?_⟩,
    fun s n fs ff w h hok hnan => ?_⟩
  · exact ⟨isNaN_scaleProduct h, calibrate_of_isNaN (isNaN_scaleProduct h) r⟩
  · exact ⟨isNaN_scaleProduct_inf_zero h, calibrate_of_isNaN (isNaN_scaleProduct_inf_zero h) r⟩
  · have hpush := perform_push_of_accepts h w
    rw [if_pos hok] at hpush
    obtain ⟨hrun, -⟩ := h
    have hvalue := calibrate_of_isNaN (isNaN_scaleProduct (d := Config.nanDraw s.draws) hnan) (extract w)
    refine ⟨_, _, hpush, ?_, ?_, hvalue⟩
    · rw [advance_phase, writeSample_phase, hrun]
    · rw [advance_out, writeSample_out, readOut_writeOut_same]

/-- Settles O31: below the normal range the product is the exact one rounded to an integer of the least subnormal; the
four values are products of it with the centred code. -/
theorem subnormalsUnderflowGradually : Obligations.SubnormalsUnderflowGradually := by
  refine ⟨fun d a b ha hb => ⟨F32.isZero_fmul_iff ha hb, F32.sign_fmul_finite ha hb, fun h => ?_⟩, fun d => ?_⟩
  · have herr := F32.roundDiv_error (F32.units a * F32.units b) F32.unit F32.unit_pos
    rw [F32.units_fmul_of_lt ha hb h]
    exact_mod_cast herr
  · have hprod := fun r => (calibrate_leastSubnormal d r).trans
      (F32.fmul_finite (by decide) (isFinite_centredInteger r))
    rw [hprod, hprod, hprod, hprod]
    decide

end Sys2Proof.Machine

/-! PROOFS of the statements about 42_row_and_host_ops.md: `advance()` under the invariant, the loop of the row function,
and the states in which only `RESET` and `CONFIGURE` change the block. -/

namespace Sys2Proof.Machine

/-! ## `advance()` under the invariant -/

/-- Where a word is accepted, the index is below the count, and the count is at most 32 (42_row_and_host_ops.md R89). -/
theorem State.Inv.idx_lt_of_pushCount {s : State} {n : Count} (hinv : s.Inv) (hn : pushCount s = some n) :
    s.idx.toNat < n.toNat ∧ n.toNat ≤ 32 := by
  obtain ⟨hrun, -, hcount, hpos⟩ := (pushCount_eq_some s n).mp hn
  obtain ⟨-, hrunning, -⟩ := hinv
  obtain ⟨⟨-, -, -, hmax⟩, -, -, -, hlt, -⟩ := hrunning hrun
  have hval : s.count = n.toNat := congrArg (fun c => (c.getD 0).toNat) hcount
  exact ⟨hval ▸ hlt (hval ▸ hpos), hval ▸ hmax⟩

/-- The index before the last one has a successor of 5 bits, so `advance()` never wraps early. -/
theorem toNat_advance_idx {n : Count} {s : State} (hlt : s.idx.toNat < n.toNat) (hmax : n.toNat ≤ 32) :
    (advance n s).idx.toNat = if s.idx.toNat + 1 = n.toNat then 0 else s.idx.toNat + 1 := by
  rw [advance_idx]
  by_cases hlast : s.idx.toNat + 1 = n.toNat
  · simp [rowCompletes, hlast]
  · have hsucc : s.idx.toNat + 1 < 32 := by omega
    simp [rowCompletes, hlast, Nat.mod_eq_of_lt hsucc]

/-- A word that leaves the block running has been accepted at its index. -/
theorem exec_advances_of_run {i : Instr} {s t : State} (h : exec i s = .next t) (hrun : t.phase = .run) :
    ∃ n v, pushCount s = some n ∧ t = advance n (writeSample s.idx v s) := by
  obtain ⟨n, hn, ⟨fs, ff, -, -, -, rfl⟩ | ⟨-, -, rfl⟩⟩ := exec_next h
  · exact ⟨n, _, hn, rfl⟩
  · rw [raiseSyncBitViolation_phase] at hrun
    cases hrun

/-! ## The loop of the row function -/

/-- The value of word `i` of a row whose word 0 takes draw `d` (40_frame_words.md R54; log 16). -/
def rowSample (N : DrawnNumerics) (d : Nat) (fs ff : F32) (i : Nat) (w : Word16) : F32 :=
  calibrateWith (N (Config.nanDraw (d + i))) (extract w) fs ff

/-- Word `i` after the first takes the draw of word `i + 1`. -/
theorem rowSample_succ_draw (N : DrawnNumerics) (d : Nat) (fs ff : F32) (i : Nat) (w : Word16) :
    rowSample N (d + 1) fs ff i w = rowSample N d fs ff (i + 1) w := by
  rw [rowSample, rowSample, Nat.succ_add_eq_add_succ]

/-- A word that fits its position gives its value, and the loop goes on. -/
theorem decodeRowFrom_cons_of_syncOk {j : Nat} {w : Word16} (hok : syncOk j w = true) (N : DrawnNumerics) (d : Nat)
    (ws : List Word16) (fs ff : F32) :
    decodeRowFrom N d j (w :: ws) fs ff =
      (decodeRowFrom N (d + 1) (j + 1) ws fs ff).map (rowSample N d fs ff 0 w :: ·) := by
  have hword : decodeSample (N (Config.nanDraw d)) j w fs ff = .ok (rowSample N d fs ff 0 w) := if_pos hok
  rw [decodeRowFrom, hword]
  cases decodeRowFrom N (d + 1) (j + 1) ws fs ff <;> rfl

/-- A word that does not fit its position ends the loop. -/
theorem decodeRowFrom_cons_of_not_syncOk {j : Nat} {w : Word16} (hbad : syncOk j w = false) (N : DrawnNumerics) (d : Nat)
    (ws : List Word16) (fs ff : F32) : decodeRowFrom N d j (w :: ws) fs ff = .error ⟨j, w⟩ := by
  have hword : decodeSample (N (Config.nanDraw d)) j w fs ff = .error ⟨j, w⟩ := if_neg (by simp [hbad])
  rw [decodeRowFrom, hword]

/-- Where every word fits its position the loop gives the value of each, in word order. -/
theorem decodeRowFrom_of_syncOk (N : DrawnNumerics) (fs ff : F32) (words : List Word16) (d j : Nat)
    (hok : ∀ (i : Nat) (w : Word16), words[i]? = some w → syncOk (j + i) w = true) :
    decodeRowFrom N d j words fs ff = .ok (words.mapIdx (rowSample N d fs ff)) := by
  induction words generalizing d j with
  | nil => rfl
  | cons w ws ih =>
    have hrest := ih (d + 1) (j + 1) fun i v hv => Nat.succ_add_eq_add_succ j i ▸ hok (i + 1) v hv
    have hshift : rowSample N (d + 1) fs ff = fun i => rowSample N d fs ff (i + 1) :=
      funext fun i => funext (rowSample_succ_draw N d fs ff i)
    rw [decodeRowFrom_cons_of_syncOk (j := j) (hok 0 w rfl), hrest, List.mapIdx_cons, hshift]
    rfl

/-- The least word that does not fit its position is the loop's error. -/
theorem decodeRowFrom_of_least_violation (N : DrawnNumerics) (fs ff : F32) (words : List Word16) (d j i : Nat)
    (w : Word16) (hw : words[i]? = some w) (hbad : syncOk (j + i) w = false)
    (hleast : ∀ (k : Nat) (v : Word16), k < i → words[k]? = some v → syncOk (j + k) v = true) :
    decodeRowFrom N d j words fs ff = .error ⟨j + i, w⟩ := by
  induction words generalizing d j i with
  | nil => cases hw
  | cons v ws ih =>
    cases i with
    | zero =>
      cases hw
      exact decodeRowFrom_cons_of_not_syncOk hbad N d ws fs ff
    | succ i =>
      have hshift := Nat.succ_add_eq_add_succ j
      have hrest := ih (d + 1) (j + 1) i hw (hshift i ▸ hbad) fun k u hk hu =>
        hshift k ▸ hleast (k + 1) u (Nat.succ_lt_succ hk) hu
      rw [decodeRowFrom_cons_of_syncOk (j := j) (hleast 0 v i.succ_pos rfl), hrest, hshift]
      rfl

/-! ## Where only `RESET` and `CONFIGURE` change the block -/

theorem pushCount_of_phase_ne_run {s : State} (hphase : s.phase ≠ .run) : pushCount s = none :=
  if_neg fun ⟨hrun, _⟩ => hphase hrun

theorem pushCount_of_no_channels {s : State} (hcount : s.channelCount = some 0) : pushCount s = none := by
  simp [pushCount, hcount]

theorem perform_takeRow_of_rowValid_eq_false {s : State} (hrow : s.rowValid = false) :
    perform .takeRow s = .fault .takeRowNotEnabled :=
  if_neg (by simp [hrow])

/-- Where neither `PUSH` nor `TAKE_ROW` is enabled, the block is changed by `RESET` only, and in `S_UNCONF` by
`CONFIGURE` (42_row_and_host_ops.md R89). -/
theorem perform_sameBlock_of_not_enabled {op : HostOp} {s t : State} (hpush : pushCount s = none)
    (htake : ¬ (s.phase = .run ∧ s.rowValid = true)) (h : perform op s = .next t) :
    (op = .reset ∧ t = resetBlock s) ∨ (s.phase = .unconf ∧ ∃ n fs ff, op = .configure n fs ff) ∨ s.SameBlock t := by
  rcases perform_next h with hreset | ⟨n, fs, ff, hop, hun, -⟩ | ⟨n, fs, ff, hop, hun, -⟩ | ⟨w, -, hexec⟩ |
    ⟨n, vs, -, hrun, hrow, -⟩ | ⟨r, v, -, -, rfl⟩
  · exact .inl hreset
  · exact .inr (.inl ⟨hun, n, fs, ff, hop⟩)
  · exact .inr (.inl ⟨hun, n, fs, ff, hop⟩)
  · rw [exec_of_pushCount_none hpush] at hexec
    cases hexec
  · exact absurd ⟨hrun, hrow⟩ htake
  · exact .inr (.inr (sameBlock_addReply (.register r v) s))

/-- Outside `S_UNCONF`, where neither `PUSH` nor `TAKE_ROW` is enabled, `RESET` alone changes the block. -/
theorem perform_sameBlock_of_stuck {op : HostOp} {s t : State} (hphase : s.phase ≠ .unconf) (hpush : pushCount s = none)
    (htake : ¬ (s.phase = .run ∧ s.rowValid = true)) (hreset : op ≠ .reset) (h : perform op s = .next t) :
    s.SameBlock t := by
  obtain ⟨hop, -⟩ | ⟨hun, -⟩ | hsame := perform_sameBlock_of_not_enabled hpush htake h
  · exact absurd hop hreset
  · exact absurd hun hphase
  · exact hsame

/-- A fault lasts until `RESET` (60_exceptions.md R100). -/
theorem perform_keeps_faulted {op : HostOp} {s t : State} (hfault : s.Faulted) (hreset : op ≠ .reset)
    (h : perform op s = .next t) : t.Faulted := by
  have hphase : s.phase ≠ .unconf ∧ s.phase ≠ .run := by
    rcases hfault with hp | hp <;> simp [hp]
  obtain ⟨hconf, hrun⟩ := hphase
  obtain ⟨hkept, -⟩ :=
    perform_sameBlock_of_stuck hconf (pushCount_of_phase_ne_run hrun) (fun hc => hrun hc.1) hreset h
  exact hfault.imp hkept.trans hkept.trans

/-- After `RESET` only `CONFIGURE` changes the block (70_reset_and_hazards.md R105). -/
theorem perform_resetBlock_next {op : HostOp} {s t : State} (h : perform op (resetBlock s) = .next t) :
    (∃ n fs ff, op = .configure n fs ff) ∨ (resetBlock s).SameBlock t := by
  have hrun : (resetBlock s).phase ≠ .run := by simp [State.reset]
  obtain ⟨-, rfl⟩ | ⟨-, hop⟩ | hsame :=
    perform_sameBlock_of_not_enabled (pushCount_of_phase_ne_run hrun) (fun hc => hrun hc.1) h
  · exact .inr ⟨rfl, ⟨rfl, rfl, rfl⟩, rfl, rfl, rfl, rfl, rfl⟩
  · exact .inl hop
  · exact .inr hsame

/-! ## The statements -/

/-- Settles O16: the index stays below the count, so the successor of any but the last one is no wrap. -/
theorem advanceWrapsAtChannelCount : Obligations.AdvanceWrapsAtChannelCount := by
  intro i s t n hinv hcount h hrun
  obtain ⟨m, v, hm, rfl⟩ := exec_advances_of_run h hrun
  obtain ⟨-, hrow, hcount', hpos⟩ := (pushCount_eq_some s m).mp hm
  obtain rfl : n = m := Option.some.inj (hcount.symm.trans hcount')
  obtain ⟨hlt, hmax⟩ := hinv.idx_lt_of_pushCount hm
  have hidx : (advance n (writeSample s.idx v s)).idx.toNat = if s.idx.toNat + 1 = n.toNat then 0 else s.idx.toNat + 1 :=
    toNat_advance_idx (s := writeSample s.idx v s) hlt hmax
  have hmod : (advance n (writeSample s.idx v s)).idx.toNat = (s.idx.toNat + 1) % n.toNat := by
    rw [hidx]
    split_ifs with hlast
    · rw [hlast, Nat.mod_self]
    · rw [Nat.mod_eq_of_lt (by omega)]
  refine ⟨fun hlast => ⟨?_, ?_⟩, fun hnot => ⟨hidx.trans (if_neg hnot), ?_⟩, hmod, hmod ▸ Nat.mod_lt _ hpos⟩
  · exact BitVec.eq_of_toNat_eq (hidx.trans (if_pos hlast))
  · simp [rowCompletes, hlast]
  · simp [rowCompletes, hnot, hrow]

/-- Settles O36: the loop from index 0. -/
theorem rowFunctionMeaning : Obligations.RowFunctionMeaning := by
  intro N d n words fs ff hwf
  have hrow : decodeRow N d words n fs ff = some (decodeRowFrom N d 0 words fs ff) := if_pos hwf
  obtain ⟨hlen, -⟩ : words.length = n ∧ n ≤ Config.maxChannels := of_decide_eq_true hwf
  refine ⟨fun hok => ⟨words.mapIdx (rowSample N d fs ff), ?_, ?_, fun j w hw => ⟨Config.nanDraw (d + j), ?_⟩⟩,
    fun j w hw hbad hleast => ?_⟩
  · rw [hrow, decodeRowFrom_of_syncOk N fs ff words d 0 (by simpa using hok)]
  · rw [List.length_mapIdx, hlen]
  · rw [List.getElem?_mapIdx, hw]
    rfl
  · rw [hrow, decodeRowFrom_of_least_violation N fs ff words d 0 j w hw (by simpa using hbad) (by simpa using hleast),
      Nat.zero_add]

/-- Settles O45: the two branches of `CONFIGURE`, a count that 6 bits hold, and, with a count of 0, a block in which
nothing else is enabled. -/
theorem configureLatchesOnce : Obligations.ConfigureLatchesOnce := by
  refine ⟨fun s n fs ff hun hle => ⟨n.setWidth 6, ?_, ?_⟩, fun s n fs ff hun hgt => ?_,
    fun s n fs ff hconf => if_neg hconf, fun s hinv hrun hcount => ?_⟩
  · rw [BitVec.toNat_setWidth, Nat.mod_eq_of_lt (by omega)]
  · exact (if_pos hun).trans (if_neg (Nat.not_lt.mpr hle))
  · exact (if_pos hun).trans (if_pos hgt)
  · obtain ⟨-, hrunning, -⟩ := hinv
    obtain ⟨-, -, -, hzero, -⟩ := hrunning hrun
    obtain ⟨-, hrow⟩ := hzero (congrArg (fun c => (c.getD 0).toNat) hcount)
    have hpush : pushCount s = none := pushCount_of_no_channels hcount
    exact ⟨fun w => exec_of_pushCount_none hpush _, perform_takeRow_of_rowValid_eq_false hrow,
      fun op t => perform_sameBlock_of_stuck (by simp [hrun]) hpush (by simp [hrow])⟩

/-- Settles O44: the reset table read back, and what changes the block after `RESET` and in a fault state. -/
theorem resetGivesResetState : Obligations.ResetGivesResetState := by
  intro s
  have hpush : pushCount (resetBlock s) = none := pushCount_of_phase_ne_run (by simp [State.reset])
  have hstatus : statusWord (resetBlock s) = 0x00000000#32 := by
    rw [statusWord, resetBlock_phase, resetBlock_rowValid]
    decide
  have hlevel : faultLevel (resetBlock s) = false := by
    rw [faultLevel, resetBlock_phase]
    decide
  have hready : inReady (resetBlock s) = false := by simp [inReady, hpush]
  exact ⟨resetBlock s, rfl, rfl, rfl, rfl, rfl, rfl, rfl, rfl, rfl, readOut_emptyRow, hstatus, hlevel, hready,
    rfl, rfl, fun op t => perform_resetBlock_next, fun hfault op t => perform_keeps_faulted hfault⟩

end Sys2Proof.Machine

/-! PROOFS of the statement about 60_exceptions.md: the fault level and the states it speaks of, what a pushed word can
do, and the two operations that enter a fault state. -/

namespace Sys2Proof.Machine

/-! ## The fault level and the fault states -/

/-- The level `fault` is up in the two fault states only (60_exceptions.md R95). -/
theorem faultLevel_eq_true_iff (s : State) : faultLevel s = true ↔ s.Faulted := by
  cases hp : s.phase <;> simp [faultLevel, State.Faulted, hp, Phase.code]

theorem faultLevel_eq_false_iff (s : State) : faultLevel s = false ↔ ¬ s.Faulted := by
  rw [← faultLevel_eq_true_iff, Bool.not_eq_true]

/-- Whether a fault is recorded is read off `STATE` alone. -/
theorem faulted_congr {s t : State} (hphase : t.phase = s.phase) : t.Faulted ↔ s.Faulted := by
  rw [State.Faulted, hphase]

theorem not_faulted_of_phase_eq_unconf {s : State} (hphase : s.phase = .unconf) : ¬ s.Faulted := by
  simp [hphase]

theorem not_faulted_of_phase_eq_run {s : State} (hphase : s.phase = .run) : ¬ s.Faulted := by
  simp [hphase]

/-- In a fault state no word has a step (60_exceptions.md R100). -/
theorem perform_push_of_faulted {s : State} (hfault : s.Faulted) (w : Word16) :
    perform (.push w) s = .fault .pushNotEnabled :=
  exec_of_pushCount_none (pushCount_of_phase_ne_run fun hrun => not_faulted_of_phase_eq_run hrun hfault) _

/-- In a fault state no `CONFIGURE` has a step (60_exceptions.md R100). -/
theorem perform_configure_of_faulted {s : State} (hfault : s.Faulted) (n : BitVec 8) (fs ff : F32) :
    perform (.configure n fs ff) s = .fault .configureNotEnabled :=
  if_neg fun hun => not_faulted_of_phase_eq_unconf hun hfault

/-! ## What a pushed word can do -/

/-- A word fails the check where its masked bits are not the expected pattern (40_frame_words.md R52). -/
theorem syncOk_eq_false_iff (j : Nat) (w : Word16) : syncOk j w = false ↔ w &&& 0x0101#16 ≠ expect j :=
  decide_eq_false_iff_not

/-- A pushed word that has a step is accepted at its index where it passes the check, and raises the violation of its
index and itself elsewhere (42_row_and_host_ops.md R84). -/
theorem perform_push_next {w : Word16} {s t : State} (h : perform (.push w) s = .next t) :
    ∃ n, pushCount s = some n ∧
      ((syncOk s.idx.toNat w = true ∧ ∃ v, t = advance n (writeSample s.idx v s)) ∨
        (syncOk s.idx.toNat w = false ∧ t = raiseSyncBitViolation w s)) := by
  obtain ⟨n, hn, hcases⟩ := exec_next (h : exec (decodeWord w) s = .next t)
  rw [raw14_decodeWord, encode_decodeWord] at hcases
  refine ⟨n, hn, ?_⟩
  rcases hcases with ⟨fs, ff, -, -, hlegal, ht⟩ | ⟨hfirst, hnext, ht⟩
  · exact .inl ⟨(syncOk_iff_decodeWord _ _).mpr hlegal, _, ht⟩
  · exact .inr ⟨Bool.eq_false_iff.mpr fun hok => ((syncOk_iff_decodeWord _ _).mp hok).elim hfirst hnext, ht⟩

/-! ## The two causes -/

/-- An operation enters a fault state by one of the two raises: of a word that fails the check, or of a count above 32
(60_exceptions.md R91, R92). -/
theorem perform_enters_fault {op : HostOp} {s t : State} (h : perform op s = .next t) (hs : ¬ s.Faulted)
    (ht : t.Faulted) :
    (∃ w, op = .push w ∧ s.rowValid = false ∧ syncOk s.idx.toNat w = false ∧ t = raiseSyncBitViolation w s) ∨
    (∃ n fs ff, op = .configure n fs ff ∧ Config.maxChannels < n.toNat ∧ t = raiseConfigurationOutOfRange s) := by
  have hmoved : t.phase ≠ s.phase := fun hkept => hs ((faulted_congr hkept).mp ht)
  rcases perform_next h with ⟨-, rfl⟩ | ⟨n, fs, ff, hop, -, hgt, hraise⟩ | ⟨n, fs, ff, -, -, -, rfl⟩ | ⟨w, rfl, -⟩ |
    ⟨n, vs, -, -, -, -, -, rfl⟩ | ⟨r, v, -, -, rfl⟩
  · exact absurd ht (not_faulted_of_phase_eq_unconf rfl)
  · exact .inr ⟨n, fs, ff, hop, hgt, hraise⟩
  · exact absurd ht (not_faulted_of_phase_eq_run rfl)
  · obtain ⟨n, hn, ⟨-, v, rfl⟩ | ⟨hbad, hraise⟩⟩ := perform_push_next h
    · exact absurd (advance_phase n (writeSample s.idx v s)) hmoved
    · obtain ⟨-, hrow, -⟩ := (pushCount_eq_some s n).mp hn
      exact .inl ⟨w, rfl, hrow, hbad, hraise⟩
  · exact absurd rfl hmoved
  · exact absurd rfl hmoved

/-! ## The statement -/

/-- Settles O50: the two raises are the only ways into a fault state, where no word and no `CONFIGURE` has a step; each
cause raises. -/
theorem onlyTwoCausesOfFault : Obligations.OnlyTwoCausesOfFault := by
  obtain ⟨-, houtOfRange, -, -⟩ := configureLatchesOnce
  refine ⟨fun op s t _ h hlow hhigh => ?_, fun s n fs ff w h hbad => ?_, houtOfRange⟩
  · rw [faultLevel_eq_false_iff] at hlow
    rw [faultLevel_eq_true_iff] at hhigh
    refine ⟨?_, perform_push_of_faulted hhigh, perform_configure_of_faulted hhigh⟩
    obtain ⟨w, hop, hrow, hbad, rfl⟩ | ⟨n, fs, ff, hop, hgt, rfl⟩ := perform_enters_fault h hlow hhigh
    · exact .inl ⟨w, hop, (syncOk_eq_false_iff _ w).mp hbad, rfl, hrow, rfl⟩
    · exact .inr ⟨n, fs, ff, hop, hgt, rfl, rfl⟩
  · rw [← syncOk_eq_false_iff] at hbad
    exact (perform_push_of_accepts h w).trans (congrArg Host.Outcome.next (if_neg (Bool.eq_false_iff.mp hbad)))

end Sys2Proof.Machine

/-! PROOFS of the statement about 70_reset_and_hazards.md: what an operation leaves of the configuration, and the words
of a session. -/

namespace Sys2Proof.Machine

/-! ## What keeps the configuration -/

theorem sameConfig_raiseSyncBitViolation (w : Word16) (s : State) : s.SameConfig (raiseSyncBitViolation w s) :=
  ⟨rfl, rfl, rfl⟩

theorem sameConfig_advance_writeSample (n : Count) (j : Index) (v : F32) (s : State) :
    s.SameConfig (advance n (writeSample j v s)) :=
  ⟨advance_channelCount _ _, advance_fullScale _ _, advance_fudge _ _⟩

/-- A pushed word that has a step keeps the configuration, and leaves the block running or with the violation recorded
(42_row_and_host_ops.md R84). -/
theorem perform_push_keeps_config {w : Word16} {s t : State} (h : perform (.push w) s = .next t) :
    s.SameConfig t ∧ t.phase ≠ .unconf := by
  obtain ⟨n, hn, ⟨-, v, rfl⟩ | ⟨-, rfl⟩⟩ := perform_push_next h
  · obtain ⟨hrun, -⟩ := (pushCount_eq_some s n).mp hn
    exact ⟨sameConfig_advance_writeSample n s.idx v s, by simp [hrun]⟩
  · exact ⟨sameConfig_raiseSyncBitViolation w s, by simp⟩

/-- Outside `S_UNCONF` every operation but `RESET` keeps the configuration and stays outside it
(70_reset_and_hazards.md R110). -/
theorem perform_keeps_config {op : HostOp} {s t : State} (hphase : s.phase ≠ .unconf) (hreset : op ≠ .reset)
    (h : perform op s = .next t) : s.SameConfig t ∧ t.phase ≠ .unconf := by
  rcases perform_next h with ⟨hop, -⟩ | ⟨n, fs, ff, -, hun, -⟩ | ⟨n, fs, ff, -, hun, -⟩ | ⟨w, rfl, -⟩ |
    ⟨n, vs, -, -, -, -, -, rfl⟩ | ⟨r, v, -, -, rfl⟩
  · exact absurd hop hreset
  · exact absurd hun hphase
  · exact absurd hun hphase
  · exact perform_push_keeps_config h
  · exact ⟨⟨rfl, rfl, rfl⟩, hphase⟩
  · exact ⟨⟨rfl, rfl, rfl⟩, hphase⟩

/-! ## The words of a session -/

/-- A pushed word has a step only where the block accepts it, with the constants the registers hold
(42_row_and_host_ops.md R84). -/
theorem accepts_of_perform_push {s t : State} {n : Count} {fs ff : F32} {w : Word16} (hcount : s.channelCount = some n)
    (hfs : s.fullScale = some fs) (hff : s.fudge = some ff) (h : perform (.push w) s = .next t) : s.Accepts n fs ff := by
  obtain ⟨m, hm, -⟩ := perform_push_next h
  obtain ⟨hrun, hrow, hm, hpos⟩ := (pushCount_eq_some s m).mp hm
  obtain rfl : n = m := Option.some.inj (hcount.symm.trans hm)
  exact ⟨hrun, hrow, hcount, hpos, hfs, hff⟩

/-- A pushed word that leaves the block running has been accepted: its calibrated value is stored at `IDX`, and the index
advances by the session's count (42_row_and_host_ops.md R84, R85). -/
theorem perform_push_of_run {s t : State} {n : Count} {fs ff : F32} {w : Word16} (haccepts : s.Accepts n fs ff)
    (h : perform (.push w) s = .next t) (hrun : t.phase = .run) :
    t = advance n (writeSample s.idx (calibrate (Config.nanDraw s.draws) (extract w) fs ff) s) := by
  rw [perform_push_of_accepts haccepts] at h
  split_ifs at h
  · cases h
    rfl
  · cases h
    cases hrun

/-- `advance()` completes the row at the last index of the session's count (42_row_and_host_ops.md R85). -/
theorem rowCompletes_iff (j : Index) (n : Count) : rowCompletes j n = true ↔ j.toNat + 1 = n.toNat :=
  decide_eq_true_iff

/-! ## The statement -/

/-- Settles O52: only `CONFIGURE` latches the configuration and only `RESET` drops it, and an accepted word reads the
registers that hold it. -/
theorem configurationIsFixedForSession : Obligations.ConfigurationIsFixedForSession := by
  refine ⟨fun op s t => perform_keeps_config, fun s n fs ff hconf => if_neg hconf,
    fun s t n fs ff w hcount hfs hff h hrun => ?_⟩
  have haccepts : s.Accepts n fs ff := accepts_of_perform_push hcount hfs hff h
  obtain rfl := perform_push_of_run haccepts h hrun
  obtain ⟨-, hrow, -⟩ := haccepts
  refine ⟨⟨Config.nanDraw s.draws, ?_⟩, ?_⟩
  · rw [advance_out, writeSample_out, readOut_writeOut_same]
  · simp [rowCompletes_iff, hrow]

end Sys2Proof.Machine

/-! PROOFS of the statements about the invariant of the reachable states (42_row_and_host_ops.md R89): every operation
keeps it, and under it an operation has a next state exactly where the table enables it. -/

namespace Sys2Proof.Machine

/-! ## The invariant, phase by phase -/

theorem State.Inv.of_blank {s : State} (hphase : s.phase = .unconf ∨ s.phase = .faultCfg) (h : s.Blank) : s.Inv := by
  refine ⟨fun _ => h, fun hp => ?_, fun hp => ?_⟩ <;> simp [hp] at hphase

theorem State.Inv.of_running {s : State} (hphase : s.phase = .run) (h : s.Running) : s.Inv := by
  refine ⟨fun hp => ?_, fun _ => h, fun hp => ?_⟩ <;> simp [hphase] at hp

theorem State.Inv.of_violated {s : State} (hphase : s.phase = .faultSync) (h : s.Violated) : s.Inv := by
  refine ⟨fun hp => ?_, fun hp => ?_, fun _ => h⟩ <;> simp [hphase] at hp

/-- The invariant speaks of the nine items of the block only (10_state.md R9). -/
theorem State.Inv.of_sameBlock {s t : State} (hinv : s.Inv) (hsame : s.SameBlock t) : t.Inv := by
  obtain ⟨hphase, ⟨hcount, hfs, hff⟩, hidx, hrow, hei, hew, hout⟩ := hsame
  unfold State.Inv State.Blank State.Running State.Violated State.Configured State.filled State.count at *
  rw [hphase, hcount, hfs, hff, hidx, hrow, hei, hew, hout]
  exact hinv

/-- Where a word has a step the block is running, with the count the word sees (42_row_and_host_ops.md R84). -/
theorem State.Inv.running_of_pushCount {s : State} {n : Count} (hinv : s.Inv) (hn : pushCount s = some n) :
    s.Running ∧ s.rowValid = false ∧ s.count = n.toNat := by
  obtain ⟨hrun, hrow, hcount, -⟩ := (pushCount_eq_some s n).mp hn
  obtain ⟨-, hrunning, -⟩ := hinv
  exact ⟨hrunning hrun, hrow, congrArg (fun c => (c.getD 0).toNat) hcount⟩

/-! ## Every operation keeps it -/

theorem inv_resetBlock (s : State) : (resetBlock s).Inv :=
  .of_blank (.inl rfl) ⟨rfl, rfl, rfl, rfl, rfl, rfl, rfl, rfl⟩

theorem inv_raiseConfigurationOutOfRange {s : State} (hinv : s.Inv) (hun : s.phase = .unconf) :
    (raiseConfigurationOutOfRange s).Inv := by
  obtain ⟨hblank, -⟩ := hinv
  have hs : s.Blank := hblank (.inl hun)
  exact .of_blank (.inr rfl) hs

@[simp] theorem getElem_emptyRow (j : Nat) (hj : j < 32) : emptyRow[j] = none := by
  simp [emptyRow]

/-- A latched configuration starts at word 0 of an empty row (42_row_and_host_ops.md R82). -/
theorem inv_latchConfiguration {s : State} (hinv : s.Inv) (hun : s.phase = .unconf) {n : BitVec 8}
    (hle : n.toNat ≤ Config.maxChannels) (fs ff : F32) : (latchConfiguration n fs ff s).Inv := by
  obtain ⟨hblank, -⟩ := hinv
  obtain ⟨hidx, hrow, -, -, -, hei, hew, hout⟩ := hblank (.inl hun)
  have hcount : (latchConfiguration n fs ff s).count = n.toNat := by
    have h64 : n.toNat < 64 := hle.trans_lt (by decide)
    simp [State.count, Nat.mod_eq_of_lt h64]
  refine .of_running rfl ⟨⟨rfl, rfl, rfl, hcount ▸ hle⟩, hei, hew, fun _ => ⟨hidx, hrow⟩, fun hpos => ?_, fun _ => hidx,
    fun j => ?_⟩
  · rw [latchConfiguration_idx, hidx]
    exact hpos
  · simp [State.filled, hrow, hidx, hout]

/-- Writing entry `i` makes it hold a value and leaves the others as they are (20_memory.md R27). -/
theorem isSome_getElem_writeOut (b : RowBuffer) (i : Index) (v : F32) (j : Fin 32) :
    (writeOut b i v)[j].isSome = true ↔ j.val = i.toNat ∨ b[j].isSome = true := by
  have hset : (writeOut b i v)[j] = if i.toNat = j.val then some v else b[j] := Vector.getElem_set i.isLt j.isLt
  rw [hset]
  split_ifs with hij
  · exact iff_of_true rfl (.inl hij.symm)
  · exact (or_iff_right (Ne.symm hij)).symm

/-- After an accepted word the entries of one more word hold values, the last word of a row included. -/
theorem filled_advance {n : Count} {s : State} (hcount : s.count = n.toNat) (hrow : s.rowValid = false)
    (hlt : s.idx.toNat < n.toNat) (hmax : n.toNat ≤ 32) : (advance n s).filled = s.idx.toNat + 1 := by
  have hn : (advance n s).count = n.toNat := by rw [State.count, advance_channelCount, ← hcount]
  rw [State.filled, hn, toNat_advance_idx hlt hmax, advance_rowValid, hrow]
  by_cases hlast : s.idx.toNat + 1 = n.toNat <;> simp [rowCompletes, hlast]

/-- An accepted word keeps the invariant (42_row_and_host_ops.md R85). -/
theorem inv_advance_writeSample {s : State} {n : Count} (hinv : s.Inv) (hn : pushCount s = some n) (v : F32) :
    (advance n (writeSample s.idx v s)).Inv := by
  obtain ⟨hlt, hmax⟩ := hinv.idx_lt_of_pushCount hn
  obtain ⟨⟨hconf, hei, hew, -, -, -, hout⟩, hrow, hcount⟩ := hinv.running_of_pushCount hn
  obtain ⟨hrun, -⟩ := (pushCount_eq_some s n).mp hn
  have hnext : (advance n (writeSample s.idx v s)).idx.toNat =
      if s.idx.toNat + 1 = n.toNat then 0 else s.idx.toNat + 1 := toNat_advance_idx (s := writeSample s.idx v s) hlt hmax
  have hfill : (advance n (writeSample s.idx v s)).filled = s.idx.toNat + 1 :=
    filled_advance (s := writeSample s.idx v s) hcount hrow hlt hmax
  have hcount' : (advance n (writeSample s.idx v s)).count = n.toNat := by
    rw [State.count, advance_channelCount]
    exact hcount
  have hzero : ¬ (advance n (writeSample s.idx v s)).count = 0 := by omega
  refine .of_running (by simp [hrun]) ⟨?_, ?_, ?_, fun h0 => absurd h0 hzero, fun _ => ?_, fun hdone => ?_, fun j => ?_⟩
  · simpa [State.Configured, State.count] using hconf
  · simpa using hei
  · simpa using hew
  · rw [hnext, hcount']
    split_ifs <;> omega
  · by_cases hlast : rowCompletes s.idx n = true
    · simp [hlast]
    · simp [hlast, hrow] at hdone
  · have hfilled : s.out[j].isSome = true ↔ j.val < s.idx.toNat := by simpa [State.filled, hrow] using hout j
    rw [hfill, advance_out, writeSample_out, isSome_getElem_writeOut, hfilled]
    omega

/-- A violation keeps the invariant: its record is of a word that does not fit `IDX` (60_exceptions.md R97). -/
theorem inv_raiseSyncBitViolation {s : State} {n : Count} (hinv : s.Inv) (hn : pushCount s = some n) {w : Word16}
    (hbad : syncOk s.idx.toNat w = false) : (raiseSyncBitViolation w s).Inv := by
  obtain ⟨hlt, -⟩ := hinv.idx_lt_of_pushCount hn
  obtain ⟨⟨hconf, -⟩, hrow, hcount⟩ := hinv.running_of_pushCount hn
  have hword : (some w).any (fun u => !syncOk s.idx.toNat u) = true := by simp [hbad]
  exact .of_violated rfl ⟨hconf, hcount ▸ hlt, hrow, rfl, hword, rfl⟩

/-- A row handed over leaves an empty one, at word 0 (42_row_and_host_ops.md R86). -/
theorem inv_releaseRow {s : State} (hinv : s.Inv) (hrow : s.rowValid = true) : (releaseRow s).Inv := by
  obtain ⟨n, hrun, -⟩ := hinv.complete_row hrow
  obtain ⟨-, hrunning, -⟩ := hinv
  obtain ⟨hconf, hei, hew, hzero, hlt, hidx, -⟩ := hrunning hrun
  have hidx0 : s.idx = 0 := hidx hrow
  refine .of_running hrun ⟨hconf, hei, hew, fun h0 => ⟨hidx0, rfl⟩, hlt, fun _ => hidx0, fun j => ?_⟩
  simp [State.filled, hidx0]

/-- A word keeps the invariant, under every `NUMERICS`. -/
theorem execWith_keeps_inv {N : DrawnNumerics} {i : Instr} {s t : State} (hinv : s.Inv) (h : execWith N i s = .next t) :
    t.Inv := by
  obtain ⟨n, hn, ⟨fs, ff, -, -, -, rfl⟩ | ⟨hfirst, hnext, rfl⟩⟩ := execWith_next h
  · exact inv_advance_writeSample hinv hn _
  · have hcode : extract (encode i) = i.raw14 := extract_enc _ _ _
    refine inv_raiseSyncBitViolation hinv hn (Bool.eq_false_iff.mpr fun hok => ?_)
    rw [syncOk_iff_decodeWord, decodeWord_encode, hcode] at hok
    exact hok.elim hfirst hnext

/-- Every host operation keeps the invariant, under every `NUMERICS`. -/
theorem performOn_keeps_inv {N : DrawnNumerics} {op : HostOp} {s t : State} (hinv : s.Inv)
    (h : performOn (execWith N) op s = .next t) : t.Inv := by
  rcases performOn_next h with ⟨-, rfl⟩ | ⟨n, fs, ff, -, hun, -, rfl⟩ | ⟨n, fs, ff, -, hun, hle, rfl⟩ | ⟨w, -, hexec⟩ |
    ⟨n, vs, -, -, hrow, -, -, rfl⟩ | ⟨r, v, -, -, rfl⟩
  · exact inv_resetBlock s
  · exact inv_raiseConfigurationOutOfRange hinv hun
  · exact inv_latchConfiguration hinv hun hle fs ff
  · exact execWith_keeps_inv hinv hexec
  · exact (inv_releaseRow hinv hrow).of_sameBlock (sameBlock_addReply _ _)
  · exact hinv.of_sameBlock (sameBlock_addReply _ _)

/-- So does `perform`, whose `NUMERICS` is the default. -/
theorem perform_keeps_inv {op : HostOp} {s t : State} (hinv : s.Inv) (h : perform op s = .next t) : t.Inv := by
  rw [perform, exec_eq_execWith] at h
  exact performOn_keeps_inv hinv h

/-- The list of pending operations is no item of the block (10_state.md R9). -/
theorem inv_pending {s : State} (hinv : s.Inv) (rest : List HostOp) : State.Inv { s with pending := rest } :=
  hinv.of_sameBlock ⟨rfl, ⟨rfl, rfl, rfl⟩, rfl, rfl, rfl, rfl, rfl⟩

theorem stepWith_keeps_inv {N : DrawnNumerics} {s t : State} (hinv : s.Inv) (h : stepWith N s = .next t) : t.Inv := by
  obtain ⟨op, rest, -, hop⟩ := performNext_next h
  exact performOn_keeps_inv (inv_pending hinv rest) hop

/-- Settles O57: an operation either starts a blank block, latches a configuration on one, stores the next entry of
`OUT`, records a word that does not fit, or releases the row. -/
theorem everyStepKeepsInvariant : Obligations.EveryStepKeepsInvariant :=
  ⟨fun _ _ hinv h => stepWith_keeps_inv hinv (step_eq_stepWith ▸ h), fun _ _ _ => stepWith_keeps_inv⟩

/-- Settles O56: after reset the block is blank. -/
theorem resetStateMeetsInvariant : Obligations.ResetStateMeetsInvariant :=
  inv_resetBlock State.reset

end Sys2Proof.Machine

/-! PROOFS of the further statements about 30_encoding.md and the wire of 20_memory.md: words as bytes, the two sync bits
as the validator reads them, and swapped and slipped streams. -/

namespace Sys2Proof

/-! ## Encoded words -/

/-- A word decodes to the one instruction it is the word of (30_encoding.md R45). -/
theorem decodeWord_eq_iff (w : Word16) (i : Instr) : decodeWord w = i ↔ encode i = w := by
  constructor
  · exact encode_of_decodeWord_eq
  · rintro rfl
    exact decodeWord_encode i

theorem decodeWord_eq_bad01_iff (w : Word16) : decodeWord w = .bad01 (extract w) ↔ syncOf w = 0x0001#16 := by
  unfold decodeWord
  rw [syncOf_eq_enc]
  cases w.getLsbD 8 <;> cases w.getLsbD 0 <;> simp [enc]

/-- The fields of an encoded word, high to low (30_encoding.md R45). -/
theorem enc_eq_append (s1 s0 : Bool) (r : Code14) :
    enc s1 s0 r = r.extractLsb' 7 7 ++ BitVec.ofBool s1 ++ (r.extractLsb' 0 7 ++ BitVec.ofBool s0) := by
  refine BitVec.eq_of_getLsbD_eq fun i hi => ?_
  simp only [BitVec.getLsbD_append]
  interval_cases i <;> simp [enc]

/-- An appended vector as a number. -/
theorem toNat_append_eq_add {n m : Nat} (x : BitVec n) (y : BitVec m) : (x ++ y).toNat = x.toNat * 2 ^ m + y.toNat := by
  rw [BitVec.toNat_append, ← Nat.shiftLeft_add_eq_or_of_lt y.isLt, Nat.shiftLeft_eq]

/-- The number an encoded word is (30_encoding.md R45). -/
theorem toNat_enc (s1 s0 : Bool) (r : Code14) :
    (enc s1 s0 r).toNat = r.toNat / 128 * 512 + s1.toNat * 256 + r.toNat % 128 * 2 + s0.toNat := by
  have hr := r.isLt
  simp only [enc_eq_append, toNat_append_eq_add, BitVec.extractLsb'_toNat, Nat.shiftRight_eq_div_pow, BitVec.toNat_ofBool]
  omega

/-- The words of one kind are as many as the sample codes: the code of such a word is its own (30_encoding.md R42). -/
theorem existsUnique_encode_iff {kind : Code14 → Instr} (hcode : ∀ r, (kind r).raw14 = r) (w : Word16) :
    (∃! r, encode (kind r) = w) ↔ decodeWord w = kind (extract w) := by
  have hown : ∀ r, encode (kind r) = w → r = extract w := by
    rintro r rfl
    exact ((extract_enc _ _ _).trans (hcode r)).symm
  rw [decodeWord_eq_iff]
  constructor
  · rintro ⟨r, hr, -⟩
    exact hown r hr ▸ hr
  · exact fun h => ⟨extract w, h, hown⟩

/-- The two parts of a sample code have no bit in common (30_encoding.md R44). -/
theorem codeParts_disjoint (w : Word16) : ((w &&& 0xFE00#16) >>> 2) &&& ((w &&& 0x00FE#16) >>> 1) = 0#16 := by
  ext i hi
  interval_cases i <;> simp

theorem codeParts_or_eq_xor (w : Word16) :
    ((w &&& 0xFE00#16) >>> 2) ||| ((w &&& 0x00FE#16) >>> 1) = ((w &&& 0xFE00#16) >>> 2) ^^^ ((w &&& 0x00FE#16) >>> 1) := by
  ext i hi
  interval_cases i <;> simp

/-! ## Words as bytes -/

/-- The first byte received is the low one (20_memory.md R28). -/
theorem wireWord_eq_append (b0 b1 : Byte) : wireWord b0 b1 = b1 ++ b0 := by
  refine BitVec.eq_of_getLsbD_eq fun i hi => ?_
  rw [BitVec.getLsbD_append]
  interval_cases i <;> simp [wireWord]

theorem extractLsb'_wireWord_low (b0 b1 : Byte) : (wireWord b0 b1).extractLsb' 0 8 = b0 := by
  rw [wireWord_eq_append, BitVec.extractLsb'_append_eq_right]

theorem extractLsb'_wireWord_high (b0 b1 : Byte) : (wireWord b0 b1).extractLsb' 8 8 = b1 := by
  rw [wireWord_eq_append, BitVec.extractLsb'_append_eq_left]

/-- A word is got back from its two bytes (20_memory.md R29). -/
theorem wireWord_extractLsb' (w : Word16) : wireWord (w.extractLsb' 0 8) (w.extractLsb' 8 8) = w := by
  ext i hi
  interval_cases i <;> simp [wireWord]

/-- Byte `k` of a stream is the low or the high byte of word `k / 2` (20_memory.md R29). -/
theorem getElem?_flatMap_wireBytes (words : List Word16) (k : Nat) :
    (words.flatMap wireBytes)[k]? = words[k / 2]?.map (·.extractLsb' (k % 2 * 8) 8) := by
  induction words generalizing k with
  | nil => rfl
  | cons w ws ih =>
    match k with
    | 0 => rfl
    | 1 => rfl
    | k + 2 =>
      have hdiv : (k + 2) / 2 = k / 2 + 1 := by omega
      have hmod : (k + 2) % 2 = k % 2 := by omega
      rw [hdiv, hmod, List.getElem?_cons_succ, ← ih k]
      rfl

/-- The words of a stream are got back from its bytes (20_memory.md R29). -/
theorem wireWords_flatMap_wireBytes (words : List Word16) : wireWords (words.flatMap wireBytes) = words := by
  induction words with
  | nil => rfl
  | cons w ws ih =>
    have hcons : wireWords ((w :: ws).flatMap wireBytes) =
        wireWord (w.extractLsb' 0 8) (w.extractLsb' 8 8) :: wireWords (ws.flatMap wireBytes) := rfl
    rw [hcons, wireWord_extractLsb', ih]

/-- A word's bytes are `{DL, S0}` and `{DH, S1}` (30_encoding.md R50). -/
theorem wireBytes_eq_fields (w : Word16) :
    wireBytes w = [(extract w).extractLsb' 0 7 ++ BitVec.ofBool (w.getLsbD 0),
      (extract w).extractLsb' 7 7 ++ BitVec.ofBool (w.getLsbD 8)] := by
  have hw : wireBytes w = wireBytes (enc (w.getLsbD 8) (w.getLsbD 0) (extract w)) := by rw [enc_extract]
  rw [hw, enc_eq_append, wireBytes, BitVec.extractLsb'_append_eq_right, BitVec.extractLsb'_append_eq_left]

/-- Swapping a word's bytes swaps its sync bits and exchanges `DH` and `DL` (40_frame_words.md R59). -/
theorem wireWord_swap {b0 b1 : Byte} {s1 s0 : Bool} {r : Code14} (h : wireWord b0 b1 = enc s1 s0 r) :
    wireWord b1 b0 = enc s0 s1 (r.extractLsb' 0 7 ++ r.extractLsb' 7 7) := by
  have hlow : b0 = r.extractLsb' 0 7 ++ BitVec.ofBool s0 := by
    rw [← extractLsb'_wireWord_low b0 b1, h, enc_eq_append, BitVec.extractLsb'_append_eq_right]
  have hhigh : b1 = r.extractLsb' 7 7 ++ BitVec.ofBool s1 := by
    rw [← extractLsb'_wireWord_high b0 b1, h, enc_eq_append, BitVec.extractLsb'_append_eq_left]
  rw [wireWord_eq_append, enc_eq_append, BitVec.extractLsb'_append_eq_left, BitVec.extractLsb'_append_eq_right, ← hlow,
    ← hhigh]

/-- Bit 0 of a word is bit 0 of the first byte received (20_memory.md R28). -/
theorem getLsbD_wireWord_zero (b0 b1 : Byte) : (wireWord b0 b1).getLsbD 0 = b0.getLsbD 0 := by
  simp [wireWord]

/-- Bit 8 of a word is bit 0 of the second byte received (20_memory.md R28). -/
theorem getLsbD_wireWord_eight (b0 b1 : Byte) : (wireWord b0 b1).getLsbD 8 = b1.getLsbD 0 := by
  simp [wireWord]

end Sys2Proof

namespace Sys2Proof.Machine

/-! ## The validator on the two sync bits -/

/-- A word fits its position where bit 8 is set and bit 0 tells whether it is a later word of its row
(40_frame_words.md R52). -/
theorem syncOk_eq_bits (j : Nat) (w : Word16) :
    syncOk j w = (w.getLsbD 8 && (w.getLsbD 0 == decide (j ≠ 0))) := by
  have hsync : syncOk j w = decide (syncOf w = expect j) := rfl
  rw [hsync, syncOf_eq_enc]
  cases j <;> cases w.getLsbD 8 <;> cases w.getLsbD 0 <;> rfl

/-- In a legal row bit 8 is set, and bit 0 but in the first word (40_frame_words.md R52). -/
theorem syncOk_iff_bits (j : Nat) (w : Word16) :
    syncOk j w = true ↔ w.getLsbD 8 = true ∧ w.getLsbD 0 = decide (j ≠ 0) := by
  rw [syncOk_eq_bits, Bool.and_eq_true, beq_iff_eq]

/-- A word whose bit 0 is set fails the check at index 0 (40_frame_words.md R52). -/
theorem syncOk_zero_of_bit_zero {w : Word16} (h : w.getLsbD 0 = true) : syncOk 0 w = false := by
  rw [syncOk_eq_bits, h, Bool.and_eq_false_iff]
  exact .inr rfl

/-- A word whose bit 8 is clear fails the check at every index (40_frame_words.md R52). -/
theorem syncOk_of_bit_eight {w : Word16} (h : w.getLsbD 8 = false) (j : Nat) : syncOk j w = false := by
  rw [syncOk_eq_bits, h, Bool.false_and]

theorem not_legalAt_bad01 (j : Index) (r : Code14) : ¬ LegalAt j (.bad01 r) := by
  simp

theorem exec_bad01_of_accepts {s : State} {n : Count} {fs ff : F32} (h : s.Accepts n fs ff) (r : Code14) :
    exec (.bad01 r) s = .next (raiseSyncBitViolation (encode (.bad01 r)) s) :=
  exec_violates_of_not_legalAt h (not_legalAt_bad01 _ r)

/-! ## The statements -/

/-- Settles O1: the fields of a word are placed by `enc` and read back, and a word is got back from its two bytes. -/
theorem decodeAndEncodeAgree : Obligations.DecodeAndEncodeAgree := by
  refine ⟨fun i _ => ⟨decodeWord_encode i, fun rest => ?_⟩, encode_decodeWord⟩
  have hdecode : decode (encodeBytes i ++ rest) =
      .ok (decodeWord (wireWord ((encode i).extractLsb' 0 8) ((encode i).extractLsb' 8 8)), rest) := rfl
  rw [hdecode, wireWord_extractLsb', decodeWord_encode]

/-- Settles O2: the fields of `enc` side by side, and two parts of a code that have no bit in common. -/
theorem encodingPlacesFields : Obligations.EncodingPlacesFields := by
  refine ⟨fun s1 s0 r => ⟨toNat_enc s1 s0 r, extract_enc s1 s0 r, ?_⟩, enc_extract, fun r => ⟨rfl, rfl⟩, fun w => ?_⟩
  · rw [syncOf_eq_enc, getLsbD_enc_eight, getLsbD_enc_zero, toNat_enc]
    simp
  · have hcode : (extract w).toNat = (((w &&& 0xFE00#16) >>> 2) ||| ((w &&& 0x00FE#16) >>> 1)).toNat := by
      rw [← setWidth_extract, BitVec.toNat_setWidth_of_le (by decide)]
    refine ⟨?_, ?_⟩
    · rw [BitVec.add_eq_or_of_and_eq_zero _ _ (codeParts_disjoint w), hcode]
    · rw [← codeParts_or_eq_xor, hcode]

/-- Settles O3: the kinds are the four values of the sync field, and a word of a kind has one code, its own. -/
theorem opcodeMapPartitionsWords : Obligations.OpcodeMapPartitionsWords := by
  intro w
  rw [existsUnique_encode_iff (fun _ => rfl), existsUnique_encode_iff (fun _ => rfl),
    existsUnique_encode_iff (fun _ => rfl), existsUnique_encode_iff (fun _ => rfl)]
  have hfirst := (decodeWord_eq_first_iff w).symm
  have hnext := (decodeWord_eq_next_iff w).symm
  have hbad00 := (decodeWord_eq_bad00_iff w).symm
  have hbad01 := (decodeWord_eq_bad01_iff w).symm
  refine ⟨hfirst, hnext, hbad00, hbad01, hfirst, hnext, hbad00, hbad01, fun j => ?_⟩
  rw [syncOk_eq_bits]
  cases w.getLsbD 8 <;> cases w.getLsbD 0 <;> cases j <;> rfl

/-- Settles O4: the listed words, evaluated. -/
theorem listedWordsDecode : Obligations.ListedWordsDecode :=
  ⟨by decide, by decide, by decide, by decide, by decide, rfl⟩

/-- Settles O5: bit 0 of byte `k` is a sync bit of word `k / 2`, and the only clear one of a legal row is `S0` of its
first word. -/
theorem wireBytesOfLegalRow : Obligations.WireBytesOfLegalRow := by
  refine ⟨fun b0 b1 => ⟨(congrArg BitVec.toNat (wireWord_eq_append b0 b1)).trans (toNat_append_eq_add b1 b0),
    extractLsb'_wireWord_low b0 b1, extractLsb'_wireWord_high b0 b1⟩,
    wireBytes_eq_fields, fun words => ⟨wireWords_flatMap_wireBytes words, fun hlegal k b hb => ?_⟩⟩
  rw [getElem?_flatMap_wireBytes, Option.map_eq_some_iff] at hb
  obtain ⟨w, hw, rfl⟩ := hb
  obtain ⟨hhigh, hlow⟩ := (syncOk_iff_bits _ w).mp (hlegal _ w hw)
  rcases Nat.mod_two_eq_zero_or_one k with hk | hk
  · have hzero : k / 2 ≠ 0 ↔ k ≠ 0 := by omega
    simpa [hk, hzero] using hlow
  · have hpos : k ≠ 0 := by omega
    simpa [hk, hpos] using hhigh

/-- Settles O11: `BAD01` is legal at no index, and swapping the bytes of a word swaps its sync bits. -/
theorem bad01RaisesViolation : Obligations.Bad01RaisesViolation := by
  refine ⟨fun s n fs ff r h => exec_bad01_of_accepts h r, fun s n fs ff w h hw => ?_, fun b0 b1 r h => ?_,
    fun b0 b1 r h => ?_⟩
  · have hbad := (decodeWord_eq_bad01_iff w).mpr hw
    have hexec := exec_bad01_of_accepts h (extract w)
    rw [encode_of_decodeWord_eq hbad, ← hbad] at hexec
    exact ⟨hbad, hexec⟩
  · have hswap := wireWord_swap (encode_of_decodeWord_eq h).symm
    refine ⟨(decodeWord_eq_iff _ _).mpr hswap.symm, syncOk_of_bit_eight ?_ 0⟩
    rw [hswap, getLsbD_enc_eight]
    rfl
  · have hswap := wireWord_swap (encode_of_decodeWord_eq h).symm
    exact (decodeWord_eq_iff _ _).mpr hswap.symm

/-- Settles O43: a late word has bit 0 set, or, between rows of one channel, bit 8 clear; a `FIRST` word has neither. -/
theorem slippedStreamFaultsAtIndexZero : Obligations.SlippedStreamFaultsAtIndexZero := by
  refine ⟨fun words b0 b1 b2 tail hlegal hbytes => ⟨?_, fun k w hk hw => ?_⟩, fun v w hv hw => ?_⟩
  · have hb1 : (words.flatMap wireBytes)[1]? = some b1 := by rw [hbytes]; rfl
    obtain ⟨-, -, hwords⟩ := wireBytesOfLegalRow
    obtain ⟨-, hbit⟩ := hwords words
    refine syncOk_zero_of_bit_zero ?_
    rw [getLsbD_wireWord_zero, hbit hlegal 1 b1 hb1]
    rfl
  · obtain ⟨-, hlow⟩ := (syncOk_iff_bits k w).mp (hlegal k w hw)
    exact syncOk_zero_of_bit_zero (hlow.trans (decide_eq_true hk.ne'))
  · obtain ⟨-, hlow⟩ := (syncOk_iff_bits 0 w).mp hw
    refine syncOk_of_bit_eight ?_ 0
    rw [getLsbD_wireWord_eight]
    simpa using hlow

end Sys2Proof.Machine

/-! PROOFS of the further statements about what a word does: where it stops, that the four kinds are `PUSH`, its frame, and
what its value depends on. -/

namespace Sys2Proof.Machine

/-! ## Where a word has a step -/

theorem exists_pushCount_iff (s : State) : (∃ n, pushCount s = some n) ↔
    s.phase = .run ∧ s.rowValid = false ∧ ∃ n, s.channelCount = some n ∧ 1 ≤ n.toNat := by
  simp only [pushCount_eq_some, exists_and_left]

/-- Under the invariant the constants hold values wherever `PUSH` is enabled (42_row_and_host_ops.md R89). -/
theorem State.Inv.accepts_of_pushCount {s : State} {n : Count} (hinv : s.Inv) (hn : pushCount s = some n) :
    ∃ fs ff, s.Accepts n fs ff := by
  obtain ⟨⟨⟨-, hfs, hff, -⟩, -⟩, -⟩ := hinv.running_of_pushCount hn
  obtain ⟨hrun, hrow, hcount, hpos⟩ := (pushCount_eq_some s n).mp hn
  obtain ⟨fs, hfs⟩ := Option.isSome_iff_exists.mp hfs
  obtain ⟨ff, hff⟩ := Option.isSome_iff_exists.mp hff
  exact ⟨fs, ff, hrun, hrow, hcount, hpos, hfs, hff⟩

/-- Under the invariant a word has a step exactly where `PUSH` is enabled (42_row_and_host_ops.md R84). -/
theorem State.Inv.exists_exec_next_iff {s : State} (hinv : s.Inv) (i : Instr) :
    (∃ t, exec i s = .next t) ↔ ∃ n, pushCount s = some n := by
  constructor
  · rintro ⟨t, h⟩
    obtain ⟨n, hn, -⟩ := exec_next h
    exact ⟨n, hn⟩
  · rintro ⟨n, hn⟩
    obtain ⟨fs, ff, h⟩ := hinv.accepts_of_pushCount hn
    exact exists_exec_next_of_accepts h i

/-! ## The four kinds as one -/

/-- The four word kinds read as one operation: legal by position, else the violation (30_encoding.md R43). -/
theorem execWith_eq_whenPushEnabled (N : DrawnNumerics) (i : Instr) (s : State) :
    execWith N i s = whenPushEnabled s fun n =>
      if LegalAt s.idx i then acceptSample N s.idx i.raw14 n s else .next (raiseSyncBitViolation (encode i) s) := by
  cases i with
  | first r =>
    simp only [legalAt_first_iff]
    by_cases hidx : s.idx = 0#5 <;> simp [execWith, execFirstWith, hidx, Instr.raw14]
  | next r =>
    simp only [legalAt_next_iff]
    by_cases hidx : s.idx = 0#5 <;> simp [execWith, execNextWith, hidx, Instr.raw14]
  | bad00 r => simp only [execWith, execBad00, not_legalAt_bad00, if_false]
  | bad01 r => simp only [execWith, execBad01, not_legalAt_bad01, if_false]

theorem execWith_decodeWord (N : DrawnNumerics) (w : Word16) (s : State) :
    execWith N (decodeWord w) s = pushWord N w s := by
  rw [execWith_eq_whenPushEnabled, pushWord]
  simp only [LegalAt, raw14_decodeWord, encode_decodeWord, syncOk_iff_decodeWord]

/-! ## What a word's value depends on -/

/-- A word that has a step violates exactly where it is not legal (30_encoding.md R43). -/
theorem exec_phase_eq_faultSync_iff {i : Instr} {s t : State} (h : exec i s = .next t) :
    t.phase = .faultSync ↔ ¬ LegalAt s.idx i := by
  obtain ⟨n, hn, ⟨fs, ff, -, -, hlegal, rfl⟩ | ⟨hfirst, hnext, rfl⟩⟩ := exec_next h
  · obtain ⟨hrun, -⟩ := (pushCount_eq_some s n).mp hn
    exact iff_of_false (by simp [hrun]) (not_not.mpr hlegal)
  · exact iff_of_true rfl (not_or.mpr ⟨hfirst, hnext⟩)

/-- A word that leaves the block running has stored the value of its code and the two constants. -/
theorem exec_stores_calibrate {i : Instr} {s t : State} (h : exec i s = .next t) (hrun : t.phase = .run) :
    ∃ fs ff, s.fullScale = some fs ∧ s.fudge = some ff ∧
      readOut t.out s.idx = some (calibrate (Config.nanDraw s.draws) i.raw14 fs ff) := by
  obtain ⟨n, -, ⟨fs, ff, hfs, hff, -, rfl⟩ | ⟨-, -, rfl⟩⟩ := exec_next h
  · exact ⟨fs, ff, hfs, hff, by rw [advance_out, writeSample_out, readOut_writeOut_same]⟩
  · cases hrun

end Sys2Proof.Machine

namespace Sys2Proof.Machine.F32

/-- A product is the drawn quiet NaN, whatever the draw, or does not depend on the draw (41_numerics.md R71). -/
theorem fmul_draw_cases (a b : F32) : (∀ d, fmul d a b = quietNaN d) ∨ ∃ c, ∀ d, fmul d a b = c := by
  unfold fmul
  split_ifs
  · exact .inl fun _ => rfl
  · exact .inl fun _ => rfl
  · exact .inr ⟨_, fun _ => rfl⟩
  · exact .inr ⟨_, fun _ => rfl⟩

end Sys2Proof.Machine.F32

namespace Sys2Proof.Machine

/-- A word's value depends on the draw only in which quiet NaN it is (10_state.md R23). -/
theorem calibrate_draw_cases (r : Code14) (fs ff : F32) :
    (∀ d, calibrate d r fs ff = F32.quietNaN d) ∨ ∃ c, ∀ d, calibrate d r fs ff = c := by
  simp only [calibrate_eq]
  rcases F32.fmul_draw_cases ff fs with hK | ⟨K, hK⟩
  · exact .inl fun d => F32.fmul_of_isNaN (.inl (by rw [hK, F32.isNaN_quietNaN]))
  · simp only [hK]
    exact F32.fmul_draw_cases K (centredInteger r)

/-- Legality depends on the index only in whether it is 0 (30_encoding.md R43). -/
theorem legalAt_congr {i j : Index} (h : i = 0 ↔ j = 0) (k : Instr) : LegalAt i k ↔ LegalAt j k := by
  rw [LegalAt, LegalAt, ne_eq, ne_eq, h]

/-! ## The statements -/

/-- Settles O12: a word needs the registers that the invariant gives wherever `PUSH` is enabled. -/
theorem wordStopsWhenPushNotEnabled : Obligations.WordStopsWhenPushNotEnabled := by
  intro i s hinv
  rw [hinv.exists_exec_next_iff, exists_pushCount_iff]
  refine ⟨.rfl, fun hno => exec_of_pushCount_none (Option.eq_none_iff_forall_ne_some.mpr fun n hn => hno ?_) i⟩
  exact (exists_pushCount_iff s).mp ⟨n, hn⟩

/-- Settles O13: the validator passes exactly the legal kinds, and `encode` gives the pushed word back. -/
theorem wordKindsAgreeWithPush : Obligations.WordKindsAgreeWithPush := by
  refine ⟨execWith_decodeWord, fun w s => ?_⟩
  have hexec : exec (decodeWord w) s = pushWord binary32 w s := by rw [exec_eq_execWith, execWith_decodeWord]
  exact ⟨hexec, hexec⟩

/-- Settles O15: an accepted word writes one entry and advances; a violation writes the record and empties the row. -/
theorem frameWordFrame : Obligations.FrameWordFrame := by
  intro i s t h
  obtain ⟨n, -, ⟨fs, ff, -, -, -, rfl⟩ | ⟨-, -, rfl⟩⟩ := exec_next h
  · refine ⟨sameConfig_advance_writeSample _ _ _ s, by simp, by simp, .inl ⟨by simp, by simp, by simp, fun j hj => ?_⟩⟩
    rw [advance_out, writeSample_out, readOut_writeOut_other _ _ _ _ hj]
  · exact ⟨sameConfig_raiseSyncBitViolation _ s, rfl, rfl, .inr ⟨rfl, rfl, rfl, rfl, readOut_emptyRow⟩⟩

/-- Settles O17: both words store the calibration of one code under the same constants, in different draws. -/
theorem sampleDependsOnWordAndConstants : Obligations.SampleDependsOnWordAndConstants := by
  intro i s₁ s₂ t₁ t₂ hfs hff h₁ h₂
  refine ⟨fun hidx => ?_, fun hrun₁ hrun₂ => ?_⟩
  · rw [exec_phase_eq_faultSync_iff h₁, exec_phase_eq_faultSync_iff h₂, legalAt_congr hidx]
  · obtain ⟨fs, ff, hfs₁, hff₁, hv₁⟩ := exec_stores_calibrate h₁ hrun₁
    obtain ⟨fs', ff', hfs₂, hff₂, hv₂⟩ := exec_stores_calibrate h₂ hrun₂
    obtain rfl : fs = fs' := Option.some.inj (hfs₁.symm.trans (hfs.trans hfs₂))
    obtain rfl : ff = ff' := Option.some.inj (hff₁.symm.trans (hff.trans hff₂))
    refine ⟨_, _, hv₁, hv₂, ?_⟩
    rcases calibrate_draw_cases i.raw14 fs ff with hnan | ⟨c, hc⟩
    · rw [hnan, hnan]
      exact .inr ⟨F32.classify_quietNaN _, F32.classify_quietNaN _⟩
    · exact .inl ((hc _).trans (hc _).symm)

end Sys2Proof.Machine

/-! PROOFS of the further statements about the host operations: the register table, the table of enabled operations, the
frame of each operation, and the step that performs the next one. -/

namespace Sys2Proof.Machine

/-! ## The register table (10_state.md R21) -/

/-- From register 7 on only the entries of `OUT` are assigned. -/
theorem readRegister_of_seven_le {r : RegNumber} (h : 7 ≤ r.toNat) (s : State) :
    readRegister r s =
      if 32 ≤ r.toNat then
        (if outReadable s (BitVec.ofNat 5 (r.toNat - 32)) then readOut s.out (BitVec.ofNat 5 (r.toNat - 32)) else none)
      else none := by
  have hne : ∀ k : RegNumber, k.toNat < 7 → r ≠ k := by
    rintro k hk rfl
    omega
  rw [readRegister, if_neg (hne 0 (by decide)), if_neg (hne 1 (by decide)), if_neg (hne 2 (by decide)),
    if_neg (hne 3 (by decide)), if_neg (hne 4 (by decide)), if_neg (hne 5 (by decide)), if_neg (hne 6 (by decide))]

/-- Registers 32 to 63 are the entries of `OUT`. -/
theorem readRegister_out {r : RegNumber} {j : Index} (hr : r.toNat = 32 + j.toNat) (s : State) :
    readRegister r s = if outReadable s j then readOut s.out j else none := by
  have hj : BitVec.ofNat 5 (r.toNat - 32) = j := by rw [hr, Nat.add_sub_cancel_left, BitVec.ofNat_toNat, BitVec.setWidth_eq]
  rw [readRegister_of_seven_le (by omega), if_pos (by omega), hj]

theorem readRegister_unassigned {r : RegNumber} (hlo : 7 ≤ r.toNat) (hhi : r.toNat ≤ 31) (s : State) :
    readRegister r s = none := by
  rw [readRegister_of_seven_le hlo, if_neg (by omega)]

/-- The register numbers, row by row of the table. -/
theorem regNumber_cases (r : RegNumber) :
    (r = 0 ∨ r = 4) ∨ (r = 1 ∨ r = 2 ∨ r = 3) ∨ (r = 5 ∨ r = 6) ∨ (7 ≤ r.toNat ∧ r.toNat ≤ 31) ∨
      ∃ j : Index, r.toNat = 32 + j.toNat := by
  have hr := r.isLt
  rcases Nat.lt_or_ge r.toNat 7 with hlo | hlo
  · have hnum : ∀ k : RegNumber, r = k ↔ r.toNat = k.toNat := fun k => BitVec.toNat_inj.symm
    rw [hnum 0, hnum 1, hnum 2, hnum 3, hnum 4, hnum 5, hnum 6]
    simp only [BitVec.reduceToNat]
    omega
  · rcases Nat.lt_or_ge r.toNat 32 with hhi | hhi
    · exact .inr (.inr (.inr (.inl ⟨hlo, Nat.le_of_lt_succ hhi⟩)))
    · refine .inr (.inr (.inr (.inr ⟨BitVec.ofNat 5 (r.toNat - 32), ?_⟩)))
      rw [BitVec.toNat_ofNat, Nat.mod_eq_of_lt (by omega), Nat.add_sub_of_le hhi]

theorem outReadable_iff (s : State) (j : Index) : outReadable s j = true ↔
    s.phase = .run ∧ s.rowValid = true ∧ ∃ n, s.channelCount = some n ∧ j.toNat < n.toNat := by
  simp [outReadable, Option.any_eq_true, and_assoc]

theorem configReadable_iff (s : State) : configReadable s = true ↔ s.phase = .run ∨ s.phase = .faultSync :=
  decide_eq_true_iff

/-- `STATUS` is `STATE`, `ROW_VALID` and zeros (10_state.md R22). -/
theorem statusWord_fields (s : State) :
    (statusWord s).extractLsb' 0 2 = s.phase.code ∧ (statusWord s).getLsbD 2 = s.rowValid ∧
      (statusWord s).extractLsb' 3 29 = 0 := by
  unfold statusWord
  cases s.phase <;> cases s.rowValid <;> decide

/-! ## Readable registers under the invariant -/

/-- Where a configuration register may be read it holds a value (42_row_and_host_ops.md R89). -/
theorem State.Inv.configured {s : State} (hinv : s.Inv) (hphase : s.phase = .run ∨ s.phase = .faultSync) :
    s.Configured := by
  obtain ⟨-, hrunning, hviolated⟩ := hinv
  rcases hphase with hp | hp
  · obtain ⟨hconf, -⟩ := hrunning hp
    exact hconf
  · obtain ⟨hconf, -⟩ := hviolated hp
    exact hconf

/-- In `S_FAULT_SYNC` the fault record holds values (60_exceptions.md R97). -/
theorem State.Inv.faultRecord {s : State} (hinv : s.Inv) (hphase : s.phase = .faultSync) :
    ∃ w, s.errIndex = some s.idx ∧ s.errWord = some w := by
  obtain ⟨-, -, hviolated⟩ := hinv
  obtain ⟨-, -, -, hindex, hword, -⟩ := hviolated hphase
  cases hw : s.errWord with
  | none => simp [hw] at hword
  | some w => exact ⟨w, hindex, rfl⟩

/-- The entries of a complete row hold values (42_row_and_host_ops.md R89). -/
theorem State.Inv.exists_readOut {s : State} {n : Count} {j : Index} (hinv : s.Inv) (hrow : s.rowValid = true)
    (hn : s.channelCount = some n) (hj : j.toNat < n.toNat) : ∃ v, readOut s.out j = some v := by
  obtain ⟨m, -, hm, -, -, hout⟩ := hinv.complete_row hrow
  obtain rfl : n = m := Option.some.inj (hn.symm.trans hm)
  exact Option.isSome_iff_exists.mp (hout ⟨j.toNat, j.isLt⟩ hj)

/-- Which registers may be read under the invariant: the rows of 10_state.md R21. -/
def State.Readable (s : State) (r : Nat) : Prop :=
  (r = 0 ∨ r = 4) ∨ ((1 ≤ r ∧ r ≤ 3) ∧ (s.phase = .run ∨ s.phase = .faultSync)) ∨
    ((5 ≤ r ∧ r ≤ 6) ∧ s.phase = .faultSync) ∨
    (32 ≤ r ∧ r - 32 < s.count ∧ s.phase = .run ∧ s.rowValid = true)

theorem readRegister_status (s : State) : readRegister 0 s = some (statusWord s) := rfl

theorem readRegister_channelCount (s : State) :
    readRegister 1 s = if s.phase = .run ∨ s.phase = .faultSync then s.channelCount.map (·.setWidth 32) else none := by
  simp only [← configReadable_iff]
  rfl

theorem readRegister_fullScale (s : State) :
    readRegister 2 s = if s.phase = .run ∨ s.phase = .faultSync then s.fullScale else none := by
  simp only [← configReadable_iff]
  rfl

theorem readRegister_fudge (s : State) :
    readRegister 3 s = if s.phase = .run ∨ s.phase = .faultSync then s.fudge else none := by
  simp only [← configReadable_iff]
  rfl

theorem readRegister_idx (s : State) : readRegister 4 s = some (s.idx.setWidth 32) := rfl

theorem readRegister_errIndex (s : State) :
    readRegister 5 s = if s.phase = .faultSync then s.errIndex.map (·.setWidth 32) else none := rfl

theorem readRegister_errWord (s : State) :
    readRegister 6 s = if s.phase = .faultSync then s.errWord.map (·.setWidth 32) else none := rfl

/-- A register guarded by a condition under which it holds a value may be read exactly under that condition. -/
theorem exists_ite_some_iff {α : Type} {p : Prop} [Decidable p] {o : Option α} (h : p → o.isSome = true) :
    (∃ v, (if p then o else none) = some v) ↔ p := by
  by_cases hp : p
  · simp only [hp, if_true, iff_true]
    exact Option.isSome_iff_exists.mp (h hp)
  · simp [hp]

theorem lt_count_iff (s : State) (k : Nat) : k < s.count ↔ ∃ n, s.channelCount = some n ∧ k < n.toNat := by
  cases hn : s.channelCount <;> simp [State.count, hn]

/-- `READ_REG` has a value exactly for the registers that may be read (42_row_and_host_ops.md R87). -/
theorem State.Inv.exists_readRegister_iff {s : State} (hinv : s.Inv) (r : RegNumber) :
    (∃ v, readRegister r s = some v) ↔ s.Readable r.toNat := by
  obtain ⟨hcount, hfs, hff⟩ : (s.phase = .run ∨ s.phase = .faultSync → s.channelCount.isSome = true) ∧
      (s.phase = .run ∨ s.phase = .faultSync → s.fullScale.isSome = true) ∧
      (s.phase = .run ∨ s.phase = .faultSync → s.fudge.isSome = true) := by
    simp only [← imp_and]
    intro hp
    obtain ⟨hcount, hfs, hff, -⟩ := hinv.configured hp
    exact ⟨hcount, hfs, hff⟩
  obtain ⟨hindex, hword⟩ : (s.phase = .faultSync → s.errIndex.isSome = true) ∧
      (s.phase = .faultSync → s.errWord.isSome = true) := by
    simp only [← imp_and]
    intro hp
    obtain ⟨w, hindex, hword⟩ := hinv.faultRecord hp
    simp [hindex, hword]
  rcases regNumber_cases r with (rfl | rfl) | (rfl | rfl | rfl) | (rfl | rfl) | ⟨hlo, hhi⟩ | ⟨j, hj⟩
  · exact iff_of_true ⟨_, readRegister_status s⟩ (.inl (.inl rfl))
  · exact iff_of_true ⟨_, readRegister_idx s⟩ (.inl (.inr rfl))
  · rw [readRegister_channelCount, exists_ite_some_iff fun hp => Option.isSome_map.trans (hcount hp)]
    simp [State.Readable]
  · rw [readRegister_fullScale, exists_ite_some_iff hfs]
    simp [State.Readable]
  · rw [readRegister_fudge, exists_ite_some_iff hff]
    simp [State.Readable]
  · rw [readRegister_errIndex, exists_ite_some_iff fun hp => Option.isSome_map.trans (hindex hp)]
    simp [State.Readable]
  · rw [readRegister_errWord, exists_ite_some_iff fun hp => Option.isSome_map.trans (hword hp)]
    simp [State.Readable]
  · rw [readRegister_unassigned hlo hhi, State.Readable]
    simp only [reduceCtorEq, exists_false, false_iff]
    omega
  · have hvalue : outReadable s j = true → (readOut s.out j).isSome = true := fun hread => by
      obtain ⟨-, hrow, n, hn, hlt⟩ := (outReadable_iff s j).mp hread
      exact Option.isSome_iff_exists.mpr (hinv.exists_readOut hrow hn hlt)
    rw [readRegister_out hj, exists_ite_some_iff hvalue, outReadable_iff, ← lt_count_iff, State.Readable, hj,
      Nat.add_sub_cancel_left]
    constructor
    · rintro ⟨hrun, hrow, hlt⟩
      exact .inr (.inr (.inr ⟨Nat.le_add_right 32 _, hlt, hrun, hrow⟩))
    · rintro (hlow | ⟨hlow, -⟩ | ⟨hlow, -⟩ | ⟨-, hlt, hrun, hrow⟩)
      · omega
      · omega
      · omega
      · exact ⟨hrun, hrow, hlt⟩

/-! ## The table of enabled operations (42_row_and_host_ops.md R89) -/

/-- `RESET` is enabled in every state (42_row_and_host_ops.md R81). -/
theorem enabled_reset (s : State) : enabled .reset s = true := by
  cases hrow : tableRow s <;> simp [enabled, enabledIn, hrow]

/-- An operation but `RESET` is enabled by the table's row. -/
theorem enabled_iff_tableRow {op : HostOp} (hop : op ≠ .reset) (s : State) :
    enabled op s = true ↔ ∃ row, tableRow s = some row ∧ enabledIn row s op = true := by
  unfold enabled
  cases tableRow s <;> simp [hop]

theorem tableRow_of_run {s : State} (hrun : s.phase = .run) :
    tableRow s = if s.rowValid then some .rowComplete
      else s.channelCount.map fun n => if n = 0 then .noChannels else .accepting := by
  rw [tableRow, hrun]

theorem tableRow_eq_unconf_iff (s : State) : tableRow s = some .unconf ↔ s.phase = .unconf := by
  cases hp : s.phase with
  | run =>
    rw [tableRow_of_run hp]
    cases s.rowValid <;> simp [ite_eq_iff]
  | _ => simp [tableRow, hp]

theorem tableRow_eq_rowComplete_iff (s : State) :
    tableRow s = some .rowComplete ↔ s.phase = .run ∧ s.rowValid = true := by
  cases hp : s.phase with
  | run =>
    rw [tableRow_of_run hp]
    cases s.rowValid <;> simp [ite_eq_iff]
  | _ => simp [tableRow, hp]

theorem tableRow_eq_accepting_iff (s : State) : tableRow s = some .accepting ↔ ∃ n, pushCount s = some n := by
  rw [exists_pushCount_iff]
  cases hp : s.phase with
  | run =>
    have hpos : ∀ n : Count, ¬ n = 0#6 ↔ 1 ≤ n.toNat := fun n => by
      rw [Nat.one_le_iff_ne_zero, ne_eq, ← BitVec.toNat_inj]
      rfl
    rw [tableRow_of_run hp]
    cases s.rowValid with
    | true => simp
    | false => simp [hpos]
  | _ => simp [tableRow, hp]

theorem enabled_configure_iff (s : State) (n : BitVec 8) (fs ff : F32) :
    enabled (.configure n fs ff) s = true ↔ s.phase = .unconf := by
  simp [enabled_iff_tableRow, enabledIn, tableRow_eq_unconf_iff]

theorem enabled_push_iff (s : State) (w : Word16) :
    enabled (.push w) s = true ↔ ∃ n, pushCount s = some n := by
  simp [enabled_iff_tableRow, enabledIn, tableRow_eq_accepting_iff]

theorem enabled_takeRow_iff (s : State) : enabled .takeRow s = true ↔ s.phase = .run ∧ s.rowValid = true := by
  simp [enabled_iff_tableRow, enabledIn, tableRow_eq_rowComplete_iff]

theorem State.Inv.enabled_readReg_iff {s : State} (hinv : s.Inv) (r : RegNumber) :
    enabled (.readReg r) s = true ↔ s.Readable r.toNat := by
  rw [enabled_iff_tableRow (by simp), State.Readable]
  cases hp : s.phase with
  | run =>
    obtain ⟨hsome, -⟩ := hinv.configured (.inl hp)
    obtain ⟨n, hn⟩ := Option.isSome_iff_exists.mp hsome
    rw [tableRow_of_run hp]
    cases hrow : s.rowValid with
    | true =>
      simp [enabledIn, regEnabled, State.count]
      omega
    | false =>
      by_cases hzero : n = 0#6 <;> simp [hn, hzero, enabledIn, regEnabled] <;> omega
  | unconf => simp [tableRow, hp, enabledIn, regEnabled]
  | faultSync =>
    simp [tableRow, hp, enabledIn, regEnabled]
    omega
  | faultCfg => simp [tableRow, hp, enabledIn, regEnabled]

/-! ## Where an operation has a step -/

theorem exists_perform_configure_iff (s : State) (n : BitVec 8) (fs ff : F32) :
    (∃ t, perform (.configure n fs ff) s = .next t) ↔ s.phase = .unconf := by
  change (∃ t, performConfigure n fs ff s = .next t) ↔ _
  unfold performConfigure
  split_ifs with hun <;> simp [hun]

theorem exists_perform_readReg_iff (s : State) (r : RegNumber) :
    (∃ t, perform (.readReg r) s = .next t) ↔ ∃ v, readRegister r s = some v := by
  change (∃ t, performReadReg r s = .next t) ↔ _
  unfold performReadReg
  cases readRegister r s <;> simp

theorem State.Inv.exists_perform_takeRow_iff {s : State} (hinv : s.Inv) :
    (∃ t, perform .takeRow s = .next t) ↔ s.phase = .run ∧ s.rowValid = true := by
  constructor
  · rintro ⟨t, h⟩
    by_contra hno
    rw [show perform .takeRow s = .fault .takeRowNotEnabled from if_neg hno] at h
    cases h
  · rintro ⟨-, hrow⟩
    obtain ⟨vs, h⟩ := hinv.perform_takeRow hrow
    exact ⟨_, h⟩

/-- `READ_REG` of a register that has a value gives the host that value (42_row_and_host_ops.md R87). -/
theorem perform_readReg_of_some {s : State} {r : RegNumber} {v : BitVec 32} (h : readRegister r s = some v) :
    perform (.readReg r) s = .next (addReply (.register r v) s) := by
  simp [perform, performOn, performReadReg, h]

theorem perform_readReg_of_none {s : State} {r : RegNumber} (h : readRegister r s = none) :
    perform (.readReg r) s = .refused (.registerNotReadable r) := by
  simp [perform, performOn, performReadReg, h]

/-! ## The statements -/

/-- Settles O46: under the invariant the entries below the count hold the values that `rowValues` collects. -/
theorem takeRowHandsOverRow : Obligations.TakeRowHandsOverRow := by
  refine ⟨fun s n hinv hphase hrow hn => ?_, fun s hno => if_neg hno⟩
  obtain ⟨m, -, hm, -, hmax, hout⟩ := hinv.complete_row hrow
  obtain rfl : n = m := Option.some.inj (hn.symm.trans hm)
  obtain ⟨vs, hvs, hlen, hvalues⟩ := rowValues_of_isSome s.out n.toNat hmax hout
  exact ⟨vs, hlen, hvalues, perform_takeRow_of_rowValues hphase hrow hn hvs⟩

/-- Settles O47: the rows of the register table, and the values the invariant gives the readable registers. -/
theorem readRegFollowsTable : Obligations.ReadRegFollowsTable := by
  intro s hinv
  refine ⟨fun r v => perform_readReg_of_some, fun r => perform_readReg_of_none,
    ⟨_, readRegister_status s, statusWord_fields s⟩, by decide, readRegister_channelCount s, readRegister_fullScale s,
    readRegister_fudge s, readRegister_idx s, readRegister_errIndex s, readRegister_errWord s,
    fun r hlo hhi => readRegister_unassigned hlo hhi s, fun r j hr => ?_, fun hphase => ?_, fun hphase => ?_,
    fun r j n hr hphase hrow hn hlt => ?_⟩
  · simp only [readRegister_out hr, outReadable_iff]
  · have hread : ∀ r : RegNumber, 1 ≤ r.toNat ∧ r.toNat ≤ 3 → ∃ v, readRegister r s = some v := fun r hr =>
      (hinv.exists_readRegister_iff r).mpr (.inr (.inl ⟨hr, hphase⟩))
    obtain ⟨a, ha⟩ := hread 1 (by decide)
    obtain ⟨b, hb⟩ := hread 2 (by decide)
    obtain ⟨c, hc⟩ := hread 3 (by decide)
    exact ⟨a, b, c, ha, hb, hc⟩
  · have hread : ∀ r : RegNumber, 5 ≤ r.toNat ∧ r.toNat ≤ 6 → ∃ v, readRegister r s = some v := fun r hr =>
      (hinv.exists_readRegister_iff r).mpr (.inr (.inr (.inl ⟨hr, hphase⟩)))
    obtain ⟨a, ha⟩ := hread 5 (by decide)
    obtain ⟨b, hb⟩ := hread 6 (by decide)
    exact ⟨a, b, ha, hb⟩
  · obtain ⟨v, hv⟩ := hinv.exists_readOut hrow hn hlt
    rw [readRegister_out hr, if_pos ((outReadable_iff s j).mpr ⟨hphase, hrow, n, hn, hlt⟩)]
    exact ⟨v, hv⟩

/-- Settles O48: each operation's own condition is its column of the table. -/
theorem enabledExactlyAsTable : Obligations.EnabledExactlyAsTable := by
  intro op s hinv
  cases op with
  | reset =>
    have hstep : ∃ t, perform .reset s = .next t := ⟨_, rfl⟩
    exact iff_of_true hstep (enabled_reset s)
  | configure n fs ff => rw [exists_perform_configure_iff, enabled_configure_iff]
  | push w => exact (hinv.exists_exec_next_iff (decodeWord w)).trans (enabled_push_iff s w).symm
  | takeRow => rw [hinv.exists_perform_takeRow_iff, enabled_takeRow_iff]
  | readReg r => rw [exists_perform_readReg_iff, hinv.exists_readRegister_iff, hinv.enabled_readReg_iff]

/-- Settles O49: the six things an operation can do, field by field. -/
theorem hostOperationFrame : Obligations.HostOperationFrame := by
  intro op s t h
  rcases perform_next h with ⟨rfl, rfl⟩ | ⟨n, fs, ff, rfl, -, -, rfl⟩ | ⟨n, fs, ff, rfl, -, -, rfl⟩ | ⟨w, rfl, hexec⟩ |
    ⟨n, vs, rfl, -, -, -, -, rfl⟩ | ⟨r, v, rfl, -, rfl⟩
  · simp
  · simp
  · simp
  · obtain ⟨-, hpending, hreplies, -⟩ := frameWordFrame _ s t hexec
    simp [hpending, hreplies]
  · exact ⟨rfl, fun _ => rfl, fun hne => absurd rfl hne, by simp, fun _ => ⟨⟨rfl, rfl, rfl⟩, rfl, rfl, rfl, rfl⟩⟩
  · simpa using sameBlock_addReply (.register r v) s

/-- Settles O51: in a fault state neither `PUSH` nor `TAKE_ROW` nor `CONFIGURE` is enabled. -/
theorem faultsLastUntilReset : Obligations.FaultsLastUntilReset := by
  intro s hfault
  have hconf : s.phase ≠ .unconf := fun hun => not_faulted_of_phase_eq_unconf hun hfault
  have hrun : s.phase ≠ .run := fun hrun => not_faulted_of_phase_eq_run hrun hfault
  exact ⟨fun op t => perform_sameBlock_of_stuck hconf (pushCount_of_phase_ne_run hrun) (fun hc => hrun hc.1),
    perform_push_of_faulted hfault, perform_configure_of_faulted hfault, _, rfl, rfl, rfl, rfl, rfl⟩

/-! ## A step performs the next operation -/

theorem performNext_of_pending {s : State} {op : HostOp} {rest : List HostOp} (h : s.pending = op :: rest)
    (run : WordExec) : performNext run s = performOn run op { s with pending := rest } := by
  rw [performNext, h]

theorem performNext_of_nil {s : State} (h : s.pending = []) (run : WordExec) :
    performNext run s = .fault .noOperationPending := by
  rw [performNext, h]

/-- Settles O54: the bytes are those of the pushed word, whose kind `performPush` decodes. -/
theorem stepRunsDecodedWord : Obligations.StepRunsDecodedWord := by
  intro s b0 b1 i rest hpending hdecode _
  have hi : decodeWord (wireWord b0 b1) = i := congrArg Prod.fst (Except.ok.inj hdecode)
  rw [step, performNext_of_pending hpending, ← hi]
  rfl

/-- Settles O55: the two cases of the pending list, and the machine as the one of the default `NUMERICS`. -/
theorem stepPerformsNextOperation : Obligations.StepPerformsNextOperation := by
  refine ⟨fun s op rest h => ⟨performNext_of_pending h exec, fun N => performNext_of_pending h (execWith N)⟩,
    fun s h => ⟨performNext_of_nil h exec, fun N => performNext_of_nil h (execWith N)⟩, congrFun step_eq_stepWith, ?_⟩
  rw [core, coreWith, step_eq_stepWith]

/-- Settles O58: the table enables only what has a step, and the step takes the operation from the list. -/
theorem enabledStepNeverStops : Obligations.EnabledStepNeverStops := by
  intro s op rest hinv hpending hen
  have hinv' := inv_pending hinv rest
  obtain ⟨t, ht⟩ := (enabledExactlyAsTable op { s with pending := rest } hinv').mpr hen
  obtain ⟨hrest, -⟩ := hostOperationFrame op _ t ht
  exact ⟨t, (performNext_of_pending hpending exec).trans ht, perform_keeps_inv hinv' ht, hrest⟩

end Sys2Proof.Machine

/-! PROOFS of the statement about the signal rendering (10_state.md R24): which operation an edge acts on, and what the
outputs show. -/

namespace Sys2Proof.Machine

/-! ## The three strobes -/

theorem inReady_iff (s : State) : inReady s = true ↔ ∃ n, pushCount s = some n :=
  Option.isSome_iff_exists

/-- Under the invariant a complete row is one `TAKE_ROW` can take (42_row_and_host_ops.md R89). -/
theorem State.Inv.enabled_takeRow_iff {s : State} (hinv : s.Inv) : enabled .takeRow s = true ↔ s.rowValid = true := by
  rw [Machine.enabled_takeRow_iff]
  refine ⟨And.right, fun hrow => ⟨?_, hrow⟩⟩
  obtain ⟨n, hrun, -⟩ := hinv.complete_row hrow
  exact hrun

theorem pushCount_of_unconf {s : State} (hun : s.phase = .unconf) : pushCount s = none :=
  pushCount_of_phase_ne_run (by simp [hun])

theorem State.Inv.rowValid_of_unconf {s : State} (hinv : s.Inv) (hun : s.phase = .unconf) : s.rowValid = false := by
  obtain ⟨hblank, -⟩ := hinv
  obtain ⟨-, hrow, -⟩ := hblank (.inl hun)
  exact hrow

/-- An operation with a strobe of its own: `in_valid`, `cfg_valid`, `row_take`. -/
abbrev HasStrobe (op : HostOp) : Prop :=
  (∃ w, op = .push w) ∨ (∃ n fs ff, op = .configure n fs ff) ∨ op = .takeRow

/-- Which operation with a strobe is enabled is read off the state alone, so that the conditions exclude each other. -/
theorem State.Inv.strobe_of_enabled {s : State} {op : HostOp} (hinv : s.Inv) (hop : HasStrobe op)
    (hen : enabled op s = true) :
    ((∃ w, op = .push w) ↔ ∃ n, pushCount s = some n) ∧ (op = .takeRow ↔ s.rowValid = true) := by
  rcases hop with ⟨w, rfl⟩ | ⟨n, fs, ff, rfl⟩ | rfl
  · obtain ⟨n, hn⟩ := (enabled_push_iff s w).mp hen
    obtain ⟨-, hrow, -⟩ := (pushCount_eq_some s n).mp hn
    simp [hn, hrow]
  · have hun := (enabled_configure_iff s n fs ff).mp hen
    simp [pushCount_of_unconf hun, hinv.rowValid_of_unconf hun]
  · have hrow := hinv.enabled_takeRow_iff.mp hen
    simp [pushCount_of_rowValid hrow, hrow]

/-! ## One edge -/

theorem edge_of_some {p : Pins} {s : State} {op : HostOp} (h : edgeOp p s = some op) : edge p s = perform op s := by
  rw [edge, h]

theorem edge_of_none {p : Pins} {s : State} (h : edgeOp p s = none) : edge p s = .next s := by
  rw [edge, h]

/-- The operation an edge acts on, by the conditions of the rules (10_state.md R24). -/
theorem State.Inv.edgeOp_eq {s : State} (hinv : s.Inv) (p : Pins) : edgeOp p s =
    if p.rst = true then some .reset
    else if p.cfgValid = true ∧ s.phase = .unconf then some (.configure p.cfgN p.cfgFs p.cfgFf)
    else if p.inValid = true ∧ inReady s = true then some (.push p.inWord)
    else if p.rowTake = true ∧ s.rowValid = true then some .takeRow
    else none := by
  simp only [edgeOp, Bool.and_eq_true, enabled_configure_iff, enabled_push_iff, hinv.enabled_takeRow_iff, inReady_iff]

/-- An edge acts only on an operation that is enabled. -/
theorem enabled_of_edgeOp {p : Pins} {s : State} {op : HostOp} (h : edgeOp p s = some op) : enabled op s = true := by
  unfold edgeOp at h
  split_ifs at h with hrst hcfg hin htake <;> cases h
  · exact enabled_reset s
  · exact (Bool.and_eq_true_iff.mp hcfg).2
  · exact (Bool.and_eq_true_iff.mp hin).2
  · exact (Bool.and_eq_true_iff.mp htake).2

/-- An edge always has a next state, which meets the invariant (10_state.md R24). -/
theorem State.Inv.exists_edge_next {s : State} (hinv : s.Inv) (p : Pins) : ∃ t, edge p s = .next t ∧ t.Inv := by
  cases hop : edgeOp p s with
  | none => exact ⟨s, edge_of_none hop, hinv⟩
  | some op =>
    obtain ⟨t, ht⟩ := (enabledExactlyAsTable op s hinv).mpr (enabled_of_edgeOp hop)
    exact ⟨t, (edge_of_some hop).trans ht, perform_keeps_inv hinv ht⟩

/-- With `rst` low an edge acts on the one strobe whose condition is true, or on nothing (10_state.md R24). -/
theorem State.Inv.edge_of_strobe {s : State} (hinv : s.Inv) {p : Pins} (hrst : p.rst = false) :
    (p.cfgValid = true → s.phase = .unconf → edge p s = perform (.configure p.cfgN p.cfgFs p.cfgFf) s) ∧
    (p.inValid = true → inReady s = true → edge p s = perform (.push p.inWord) s) ∧
    (p.rowTake = true → s.rowValid = true → edge p s = perform .takeRow s) ∧
    (¬ (p.cfgValid = true ∧ s.phase = .unconf) → ¬ (p.inValid = true ∧ inReady s = true) →
      ¬ (p.rowTake = true ∧ s.rowValid = true) → edge p s = .next s) := by
  have hedge := hinv.edgeOp_eq p
  rw [if_neg (by simp [hrst])] at hedge
  refine ⟨fun hcfg hun => edge_of_some ?_, fun hin hready => edge_of_some ?_, fun htake hrow => edge_of_some ?_,
    fun hcfg hin htake => edge_of_none ?_⟩
  · rw [hedge, if_pos ⟨hcfg, hun⟩]
  · have hun : s.phase ≠ .unconf := fun hun => by simp [inReady, pushCount_of_unconf hun] at hready
    rw [hedge, if_neg fun h => hun h.2, if_pos ⟨hin, hready⟩]
  · have hun : s.phase ≠ .unconf := fun hun => by simp [hinv.rowValid_of_unconf hun] at hrow
    have hready : inReady s = false := by simp [inReady, pushCount_of_rowValid hrow]
    rw [hedge, if_neg fun h => hun h.2, if_neg (by simp [hready]), if_pos ⟨htake, hrow⟩]
  · rw [hedge, if_neg hcfg, if_neg hin, if_neg htake]

/-! ## The outputs -/

/-- `reg_data` shows what `READ_REG` returns (10_state.md R24). -/
theorem regData_eq_some_iff (r : RegNumber) (v : BitVec 32) (s : State) :
    regData r s = some v ↔ perform (.readReg r) s = .next (addReply (.register r v) s) := by
  refine ⟨perform_readReg_of_some, fun h => ?_⟩
  obtain ⟨u, hu⟩ := (exists_perform_readReg_iff s r).mp ⟨_, h⟩
  rw [perform_readReg_of_some hu, Host.Outcome.next.injEq] at h
  have hreplies : s.replies ++ [.register r u] = s.replies ++ [.register r v] := congrArg State.replies h
  obtain rfl : u = v := by simpa using hreplies
  exact hu

/-! ## The statement -/

/-- Settles O59: an edge acts on an enabled operation or on nothing, the strobes' conditions exclude each other, and each
output is a read of the state. -/
theorem clockEdgeRendersOperations : Obligations.ClockEdgeRendersOperations := by
  intro p s hinv
  refine ⟨hinv.exists_edge_next p, fun hrst => ?_, hinv.edge_of_strobe, fun op op' hop hop' hen hen' => ?_,
    faultLevel_eq_true_iff s, (inReady_iff s).trans (exists_pushCount_iff s), ?_, rfl, fun sel n hrow hn hlt => ?_,
    fun hphase => ?_, fun sel v => regData_eq_some_iff sel v s⟩
  · have hedge : edge p s = perform .reset s := edge_of_some (if_pos hrst)
    exact ⟨hedge, hedge⟩
  · obtain ⟨hpush, htake⟩ := hinv.strobe_of_enabled hop hen
    obtain ⟨hpush', htake'⟩ := hinv.strobe_of_enabled hop' hen'
    exact ⟨hpush.trans hpush'.symm, htake.trans htake'.symm⟩
  · rw [inReady_iff]
    exact ⟨fun h w => (enabled_push_iff s w).mpr h, fun h => (enabled_push_iff s 0).mp (h 0)⟩
  · obtain ⟨v, hv⟩ := hinv.exists_readOut hrow hn hlt
    obtain ⟨-, hrun, -⟩ := hinv.complete_row hrow
    exact ⟨v, (if_pos ((outReadable_iff s sel).mpr ⟨hrun, hrow, n, hn, hlt⟩)).trans hv, hv⟩
  · obtain ⟨w, hindex, hword⟩ := hinv.faultRecord hphase
    exact ⟨s.idx, w, (if_pos hphase).trans hindex, hindex, (if_pos hphase).trans hword, hword⟩

end Sys2Proof.Machine

/-! PROOFS of the statement about listings (30_encoding.md R48): what each written line stands for. -/

namespace Sys2Proof.Machine

theorem assemble_of_not_wf {l : Line} (h : l.wf = false) : assemble l = none := by
  simp [assemble, h]

/-- A code that fits 14 bits is written in the line, and encoded in the word (30_encoding.md R48). -/
theorem assemble_word_kinds {r : Nat} (hr : r ≤ 16383) :
    assemble (.first r) = some (.push (encode (.first (BitVec.ofNat 14 r)))) ∧
      assemble (.next r) = some (.push (encode (.next (BitVec.ofNat 14 r)))) ∧
      assemble (.bad00 r) = some (.push (encode (.bad00 (BitVec.ofNat 14 r)))) ∧
      assemble (.bad01 r) = some (.push (encode (.bad01 (BitVec.ofNat 14 r)))) := by
  simp [assemble, Line.wf, hr]

/-- `CONFIGURE` with constants that fit (30_encoding.md R48). -/
theorem assemble_configure (n : BitVec 8) {fs ff : RealLit} (hfs : fs.wf = true) (hff : ff.wf = true) :
    assemble (.configure n.toNat fs ff) = some (.configure n (realValue fs) (realValue ff)) := by
  have hn : n.toNat ≤ 255 := Nat.le_of_lt_succ n.isLt
  simp [assemble, Line.wf, hn, hfs, hff]

theorem realLit_bits_wf (x : F32) : (RealLit.bits x.toNat).wf = true :=
  decide_eq_true x.isLt

theorem realValue_bits (x : F32) : realValue (.bits x.toNat) = x := by
  rw [realValue, BitVec.ofNat_toNat, BitVec.setWidth_eq]

/-- Settles O60: each form of line, in its range and out of it. -/
theorem listingLinesStandForWords : Obligations.ListingLinesStandForWords := by
  refine ⟨fun r hr => ?_, fun r hr => ?_, fun w => ?_, fun w hw => ?_, rfl, rfl, fun n fs ff => ?_,
    fun n fs ff => assemble_configure n, fun _ _ _ => rfl, fun n fs ff hn => ?_, fun n k x hk => ?_, fun r => ?_,
    fun r hr => ?_, rfl, rfl, rfl, rfl, rfl, rfl, rfl, fun j => ?_, fun j hj => ?_, by decide, by decide⟩
  · obtain ⟨hfirst, hnext, hbad00, hbad01⟩ := assemble_word_kinds hr
    exact ⟨⟨_, hfirst, decodeWord_encode _⟩, ⟨_, hnext, decodeWord_encode _⟩, ⟨_, hbad00, decodeWord_encode _⟩,
      ⟨_, hbad01, decodeWord_encode _⟩⟩
  · have hcode : decide (r ≤ 16383) = false := decide_eq_false (by omega)
    exact ⟨assemble_of_not_wf hcode, assemble_of_not_wf hcode, assemble_of_not_wf hcode, assemble_of_not_wf hcode⟩
  · simp [assemble, Line.wf, w.isLt]
  · exact assemble_of_not_wf (decide_eq_false (by omega))
  · rw [assemble_configure n (realLit_bits_wf fs) (realLit_bits_wf ff), realValue_bits, realValue_bits]
  · have hcount : ¬ n ≤ 255 := by omega
    exact assemble_of_not_wf (by simp [Line.wf, hcount])
  · have hbits : (RealLit.bits k).wf = false := decide_eq_false (by omega)
    exact ⟨assemble_of_not_wf (by simp [Line.wf, hbits]), assemble_of_not_wf (by simp [Line.wf, hbits])⟩
  · have hr : r.toNat ≤ 63 := Nat.le_of_lt_succ r.isLt
    simp [assemble, Line.wf, RegLit.wf, regNumber, hr]
  · exact assemble_of_not_wf (decide_eq_false (by omega))
  · have hj : j.toNat ≤ 31 := Nat.le_of_lt_succ j.isLt
    refine ⟨BitVec.ofNat 6 (32 + j.toNat), ?_, ?_⟩
    · rw [BitVec.toNat_ofNat, Nat.mod_eq_of_lt (by omega)]
    · simp [assemble, Line.wf, RegLit.wf, regNumber, hj]
  · exact assemble_of_not_wf (decide_eq_false (by omega))

end Sys2Proof.Machine

/-! PROOFS of the further statements about rows (42_row_and_host_ops.md R78 to R90, 70_reset_and_hazards.md R107): the
domain of the row function, its lanes, and the block as words of a row are pushed one by one. -/

namespace Sys2Proof.Machine

/-! ## The row function, word by word -/

theorem decodeRow_of_rowWf {words : List Word16} {n : Nat} (h : rowWf words n = true) (N : DrawnNumerics) (d : Nat)
    (fs ff : F32) : decodeRow N d words n fs ff = some (decodeRowFrom N d 0 words fs ff) :=
  if_pos h

theorem rowWf_iff (words : List Word16) (n : Nat) : rowWf words n = true ↔ words.length = n ∧ n ≤ 32 :=
  decide_eq_true_iff

/-- A result of the row function is one of the loop, on a list of its length (42_row_and_host_ops.md R78). -/
theorem decodeRow_eq_some_iff {N : DrawnNumerics} {d n : Nat} {words : List Word16} {fs ff : F32}
    {res : Except SyncBitViolation (List F32)} : decodeRow N d words n fs ff = some res ↔
      (words.length = n ∧ n ≤ 32) ∧ decodeRowFrom N d 0 words fs ff = res := by
  rw [decodeRow, ← rowWf_iff]
  split_ifs with hwf <;> simp [hwf]

/-- The loop goes on past the first word exactly when that word fits. -/
theorem decodeRowFrom_cons_eq_ok {N : DrawnNumerics} {d j : Nat} {w : Word16} {ws : List Word16} {fs ff : F32}
    {out : List F32} (h : decodeRowFrom N d j (w :: ws) fs ff = .ok out) :
    syncOk j w = true ∧ ∃ vs, decodeRowFrom N (d + 1) (j + 1) ws fs ff = .ok vs ∧ out = rowSample N d fs ff 0 w :: vs := by
  cases hok : syncOk j w with
  | false =>
    rw [decodeRowFrom_cons_of_not_syncOk hok] at h
    cases h
  | true =>
    rw [decodeRowFrom_cons_of_syncOk hok] at h
    cases hrest : decodeRowFrom N (d + 1) (j + 1) ws fs ff with
    | error e =>
      rw [hrest] at h
      cases h
    | ok vs =>
      rw [hrest] at h
      cases h
      exact ⟨rfl, vs, rfl, rfl⟩

/-- The loop's error is of the first word, or of the rest after a word that fits. -/
theorem decodeRowFrom_cons_eq_error {N : DrawnNumerics} {d j : Nat} {w : Word16} {ws : List Word16} {fs ff : F32}
    {e : SyncBitViolation} (h : decodeRowFrom N d j (w :: ws) fs ff = .error e) :
    (syncOk j w = false ∧ e = ⟨j, w⟩) ∨
      (syncOk j w = true ∧ decodeRowFrom N (d + 1) (j + 1) ws fs ff = .error e) := by
  cases hok : syncOk j w with
  | false =>
    rw [decodeRowFrom_cons_of_not_syncOk hok] at h
    cases h
    exact .inl ⟨rfl, rfl⟩
  | true =>
    rw [decodeRowFrom_cons_of_syncOk hok] at h
    cases hrest : decodeRowFrom N (d + 1) (j + 1) ws fs ff with
    | error e' =>
      rw [hrest] at h
      cases h
      exact .inr ⟨rfl, rfl⟩
    | ok vs =>
      rw [hrest] at h
      cases h

/-! ## Lanes -/

/-- Lane `i` of the words from position `j` on, draws from `d` (42_row_and_host_ops.md R80). -/
def laneFrom (N : DrawnNumerics) (d j : Nat) (fs ff : F32) (i : Nat) (w : Word16) : Except SyncBitViolation F32 :=
  decodeSample (N (Config.nanDraw (d + i))) (j + i) w fs ff

theorem lane_eq_laneFrom (N : DrawnNumerics) (d : Nat) (fs ff : F32) : lane N d fs ff = laneFrom N d 0 fs ff := by
  funext i w
  rw [lane, laneFrom, Nat.zero_add]

theorem laneFrom_succ (N : DrawnNumerics) (d j : Nat) (fs ff : F32) (i : Nat) :
    laneFrom N d j fs ff (i + 1) = laneFrom N (d + 1) (j + 1) fs ff i := by
  funext w
  rw [laneFrom, laneFrom, Nat.succ_add_eq_add_succ, Nat.succ_add_eq_add_succ]

/-- The loop is all lanes at once, with the error of the lowest faulting one. -/
theorem decodeRowFrom_eq_mapM_lanes (N : DrawnNumerics) (fs ff : F32) (words : List Word16) (d j : Nat) :
    decodeRowFrom N d j words fs ff = (words.mapIdx (laneFrom N d j fs ff)).mapM id := by
  induction words generalizing d j with
  | nil => rfl
  | cons w ws ih =>
    have hfirst : laneFrom N d j fs ff 0 w = decodeSample (N (Config.nanDraw d)) j w fs ff := rfl
    rw [List.mapIdx_cons, List.mapM_cons, decodeRowFrom, ih (d + 1) (j + 1), hfirst]
    simp only [laneFrom_succ]
    cases decodeSample (N (Config.nanDraw d)) j w fs ff with
    | error e => rfl
    | ok v => cases List.mapM id (ws.mapIdx (laneFrom N (d + 1) (j + 1) fs ff)) <;> rfl

/-! ## A buffer filled in word order -/

/-- The buffer whose first entries hold the values of a list (10_state.md R18). -/
def bufferOf (vs : List F32) : RowBuffer := Vector.ofFn fun j : Fin 32 => vs[j.val]?

@[simp] theorem readOut_bufferOf (vs : List F32) (j : Index) : readOut (bufferOf vs) j = vs[j.toNat]? := by
  simp [readOut, bufferOf]

theorem bufferOf_nil : bufferOf [] = emptyRow :=
  rowBuffer_ext _ _ fun j => by simp

/-- Writing the next entry appends to the list. -/
theorem writeOut_bufferOf {vs : List F32} {j : Index} (hj : j.toNat = vs.length) (v : F32) :
    writeOut (bufferOf vs) j v = bufferOf (vs ++ [v]) := by
  refine rowBuffer_ext _ _ fun i => ?_
  by_cases hij : i = j
  · rw [hij, readOut_writeOut_same, readOut_bufferOf, hj, List.getElem?_concat_length]
  · have hne : i.toNat ≠ vs.length := fun h => hij (BitVec.eq_of_toNat_eq (h.trans hj.symm))
    rw [readOut_writeOut_other _ _ _ _ hij, readOut_bufferOf, readOut_bufferOf]
    rcases Nat.lt_or_gt_of_ne hne with hlt | hgt
    · rw [List.getElem?_append_left hlt]
    · rw [List.getElem?_eq_none hgt.le, List.getElem?_eq_none (by simpa using hgt)]

/-- `TAKE_ROW` collects the list of a buffer so filled (42_row_and_host_ops.md R86). -/
theorem rowValues_bufferOf {vs : List F32} (h : vs.length ≤ 32) : rowValues (bufferOf vs) vs.length = some vs := by
  have hsome : ∀ j : Fin 32, j.val < vs.length → (bufferOf vs)[j].isSome = true := fun j hj => by
    simp [bufferOf, hj]
  obtain ⟨us, hus, hlen, hvalues⟩ := rowValues_of_isSome (bufferOf vs) vs.length h hsome
  rw [hus]
  refine congrArg some (List.ext_getElem? fun k => ?_)
  rcases Nat.lt_or_ge k vs.length with hk | hk
  · have hmod : (BitVec.ofNat 5 k).toNat = k := by rw [BitVec.toNat_ofNat, Nat.mod_eq_of_lt (by omega)]
    have hread := hvalues (BitVec.ofNat 5 k) (hmod.symm ▸ hk)
    rw [readOut_bufferOf, hmod] at hread
    exact hread.symm
  · rw [List.getElem?_eq_none hk, List.getElem?_eq_none (hlen.trans_le hk)]

/-! ## A block between the words of a row -/

/-- The block `s`, at word 0 of a row, after words with the values `vs` were accepted, with `rest` still pending
(42_row_and_host_ops.md R85). -/
def State.accepted (s : State) (n : Count) (vs : List F32) (rest : List HostOp) : State :=
  { s with
    idx := if vs.length = n.toNat then 0 else BitVec.ofNat 5 vs.length
    rowValid := decide (vs.length = n.toNat)
    out := bufferOf vs
    pending := rest
    draws := s.draws + vs.length }

theorem accepts_accepted {s : State} {n : Count} {fs ff : F32} (h : s.Accepts n fs ff) {vs : List F32}
    (hlt : vs.length < n.toNat) (rest : List HostOp) : (s.accepted n vs rest).Accepts n fs ff := by
  obtain ⟨hrun, -, hcount, hpos, hfs, hff⟩ := h
  exact ⟨hrun, decide_eq_false hlt.ne, hcount, hpos, hfs, hff⟩

theorem toNat_idx_accepted {s : State} {n : Count} {vs : List F32} (hlt : vs.length < n.toNat) (hmax : n.toNat ≤ 32)
    (rest : List HostOp) : (s.accepted n vs rest).idx.toNat = vs.length := by
  rw [State.accepted, if_neg hlt.ne, BitVec.toNat_ofNat, Nat.mod_eq_of_lt (by omega)]

/-- One more word is accepted: its value is appended, and `advance()` moves on (42_row_and_host_ops.md R84, R85). -/
theorem advance_writeSample_accepted {s : State} {n : Count} {vs : List F32} (hlt : vs.length < n.toNat)
    (hmax : n.toNat ≤ 32) (v : F32) (rest : List HostOp) :
    advance n (writeSample (s.accepted n vs rest).idx v (s.accepted n vs rest)) = s.accepted n (vs ++ [v]) rest := by
  have hidx : (s.accepted n vs rest).idx = BitVec.ofNat 5 vs.length := if_neg hlt.ne
  have htoNat := toNat_idx_accepted (s := s) hlt hmax rest
  have hout : writeOut (bufferOf vs) (s.accepted n vs rest).idx v = bufferOf (vs ++ [v]) := writeOut_bufferOf htoNat v
  have hlen : (vs ++ [v]).length = vs.length + 1 := by simp
  have hdone : rowCompletes (s.accepted n vs rest).idx n = decide (vs.length + 1 = n.toNat) := by
    rw [rowCompletes, htoNat]
  have hwrite : writeSample (s.accepted n vs rest).idx v (s.accepted n vs rest) =
      { s.accepted n vs rest with out := bufferOf (vs ++ [v]), draws := s.draws + (vs ++ [v]).length } := by
    rw [← hout, hlen]
    rfl
  rw [advance, writeSample_idx, hdone, hwrite, hidx]
  by_cases hlast : vs.length + 1 = n.toNat
  · simp [State.accepted, hlast]
  · simp [State.accepted, hlast, hlt.ne, BitVec.ofNat_add]

/-- At word 0 of a row under the invariant the buffer is empty (42_row_and_host_ops.md R89). -/
theorem State.Inv.out_eq_emptyRow {s : State} {n : Count} {fs ff : F32} (hinv : s.Inv) (h : s.Accepts n fs ff)
    (hidx : s.idx = 0) : s.out = emptyRow := by
  obtain ⟨hrun, hrow, -⟩ := h
  obtain ⟨-, hrunning, -⟩ := hinv
  obtain ⟨-, -, -, -, -, -, hout⟩ := hrunning hrun
  refine rowBuffer_ext _ _ fun j => ?_
  have hnone : ¬ s.out[(⟨j.toNat, j.isLt⟩ : Fin 32)].isSome = true := by
    rw [hout, State.filled, hrow, hidx]
    exact Nat.not_lt_zero _
  rw [readOut_emptyRow]
  exact Option.not_isSome_iff_eq_none.mp hnone

/-- Before the first word of a row nothing has been accepted. -/
theorem State.Inv.accepted_nil {s : State} {n : Count} {fs ff : F32} (hinv : s.Inv) (h : s.Accepts n fs ff)
    (hidx : s.idx = 0) : s.accepted n [] s.pending = s := by
  have hout := hinv.out_eq_emptyRow h hidx
  obtain ⟨-, hrow, -, hpos, -⟩ := h
  have hne : 0 ≠ n.toNat := by omega
  have hzero : s.accepted n [] s.pending = { s with idx := 0, rowValid := false, out := emptyRow } := by
    simp [State.accepted, bufferOf_nil, hne]
  rw [hzero, ← hout, ← hidx, ← hrow]

/-- Under the invariant the count is at most 32 wherever a word is accepted (10_state.md R10). -/
theorem State.Inv.count_le {s : State} {n : Count} {fs ff : F32} (hinv : s.Inv) (h : s.Accepts n fs ff) :
    n.toNat ≤ 32 := by
  obtain ⟨-, hmax⟩ := hinv.idx_lt_of_pushCount (pushCount_of_accepts h)
  exact hmax

/-! ## Pushing the words of a row -/

/-- A pushed word under any `NUMERICS`: accepted where it fits, else the violation (42_row_and_host_ops.md R84). -/
theorem performOn_push_of_accepts {s : State} {n : Count} {fs ff : F32} (h : s.Accepts n fs ff) (N : DrawnNumerics)
    (w : Word16) : performOn (execWith N) (.push w) s = .next (if syncOk s.idx.toNat w
      then advance n (writeSample s.idx (calibrateWith (N (Config.nanDraw s.draws)) (extract w) fs ff) s)
      else raiseSyncBitViolation w s) := by
  have hpush : performOn (execWith N) (.push w) s = pushWord N w s := execWith_decodeWord N w s
  rw [hpush, pushWord, whenPushEnabled_of_accepts h, acceptSample_of_accepts h]
  split_ifs <;> rfl

theorem coreWith_run_succ {N : DrawnNumerics} {s t : State} {k : Nat} (h : stepWith N s = .next t) :
    (coreWith N).run (k + 1) s = (coreWith N).run k t :=
  hostCore_run_succ (coreWith N) h

section Pushes

variable {N : DrawnNumerics} {s : State} {n : Count} {fs ff : F32}

/-- The step that pushes the next word of a row, where it fits its position. -/
theorem stepWith_accepted_of_syncOk (h : s.Accepts n fs ff) (hmax : n.toNat ≤ 32) {vs : List F32}
    (hlt : vs.length < n.toNat) {w : Word16} (hok : syncOk vs.length w = true) (rest : List HostOp) :
    stepWith N (s.accepted n vs (.push w :: rest)) =
      .next (s.accepted n (vs ++ [rowSample N (s.draws + vs.length) fs ff 0 w]) rest) := by
  have hpop : stepWith N (s.accepted n vs (.push w :: rest)) = performOn (execWith N) (.push w) (s.accepted n vs rest) :=
    rfl
  rw [hpop, performOn_push_of_accepts (accepts_accepted h hlt rest), toNat_idx_accepted hlt hmax, if_pos hok,
    advance_writeSample_accepted hlt hmax]
  rfl

/-- The step that pushes a word that does not fit its position. -/
theorem stepWith_accepted_of_not_syncOk (h : s.Accepts n fs ff) (hmax : n.toNat ≤ 32) {vs : List F32}
    (hlt : vs.length < n.toNat) {w : Word16} (hbad : syncOk vs.length w = false) (rest : List HostOp) :
    stepWith N (s.accepted n vs (.push w :: rest)) = .next (raiseSyncBitViolation w (s.accepted n vs rest)) := by
  have hpop : stepWith N (s.accepted n vs (.push w :: rest)) = performOn (execWith N) (.push w) (s.accepted n vs rest) :=
    rfl
  rw [hpop, performOn_push_of_accepts (accepts_accepted h hlt rest), toNat_idx_accepted hlt hmax,
    if_neg (Bool.eq_false_iff.mp hbad)]

/-- Pushing words that decode accepts each, with the loop's values (42_row_and_host_ops.md R88). -/
theorem run_accepted_of_ok (h : s.Accepts n fs ff) (hmax : n.toNat ≤ 32) (words : List Word16) (vs out : List F32)
    (rest : List HostOp) (hlen : vs.length + words.length ≤ n.toNat)
    (hrow : decodeRowFrom N (s.draws + vs.length) vs.length words fs ff = .ok out) :
    (coreWith N).run words.length (s.accepted n vs (words.map .push ++ rest)) = .next (s.accepted n (vs ++ out) rest) := by
  induction words generalizing vs out with
  | nil =>
    cases hrow
    rw [List.append_nil]
    rfl
  | cons w ws ih =>
    rw [List.length_cons] at hlen
    obtain ⟨hok, us, hus, rfl⟩ := decodeRowFrom_cons_eq_ok hrow
    have hstep := stepWith_accepted_of_syncOk (N := N) h hmax (by omega) hok (ws.map .push ++ rest)
    rw [List.length_cons, List.map_cons, List.cons_append, coreWith_run_succ hstep,
      ih _ us (by simp; omega) (by simpa [Nat.add_assoc] using hus), List.append_assoc]
    rfl

/-- Pushing words that do not decode ends in the violation the loop gives (42_row_and_host_ops.md R88). -/
theorem run_accepted_of_error (h : s.Accepts n fs ff) (hmax : n.toNat ≤ 32) (words : List Word16) (vs : List F32)
    (rest : List HostOp) (e : SyncBitViolation) (hlen : vs.length + words.length ≤ n.toNat)
    (hrow : decodeRowFrom N (s.draws + vs.length) vs.length words fs ff = .error e) :
    ∃ k us later, e.index = vs.length + k ∧ words[k]? = some e.word ∧ us.length = e.index ∧
      (coreWith N).run (k + 1) (s.accepted n vs (words.map .push ++ rest)) =
        .next (raiseSyncBitViolation e.word (s.accepted n us later)) := by
  induction words generalizing vs with
  | nil => cases hrow
  | cons w ws ih =>
    rw [List.length_cons] at hlen
    rcases decodeRowFrom_cons_eq_error hrow with ⟨hbad, rfl⟩ | ⟨hok, hrest⟩
    · refine ⟨0, vs, ws.map .push ++ rest, rfl, rfl, rfl, ?_⟩
      have hstep := stepWith_accepted_of_not_syncOk (N := N) h hmax (by omega) hbad (ws.map .push ++ rest)
      rw [List.map_cons, List.cons_append, coreWith_run_succ hstep]
      rfl
    · have hstep := stepWith_accepted_of_syncOk (N := N) h hmax (by omega) hok (ws.map .push ++ rest)
      obtain ⟨k, us, later, hk, hw, hus, hrun⟩ := ih (vs ++ [rowSample N (s.draws + vs.length) fs ff 0 w])
        (by simp; omega) (by simpa [Nat.add_assoc] using hrest)
      refine ⟨k + 1, us, later, ?_, hw, hus, ?_⟩
      · rw [hk]
        simp
        omega
      · rw [List.map_cons, List.cons_append, coreWith_run_succ hstep, hrun]

end Pushes

/-! ## A whole row -/

theorem decodeRowFrom_length {N : DrawnNumerics} {fs ff : F32} {words : List Word16} {d j : Nat} {out : List F32}
    (h : decodeRowFrom N d j words fs ff = .ok out) : out.length = words.length := by
  induction words generalizing d j out with
  | nil =>
    cases h
    rfl
  | cons w ws ih =>
    obtain ⟨-, vs, hvs, rfl⟩ := decodeRowFrom_cons_eq_ok h
    rw [List.length_cons, List.length_cons, ih hvs]

/-- The block `s`, at word 0 of a row, after a whole row with the values `out` was pushed and taken, with `rest` still
pending (42_row_and_host_ops.md R88). -/
def State.delivered (s : State) (out : List F32) (rest : List HostOp) : State :=
  { s with pending := rest, replies := s.replies ++ [.row out], draws := s.draws + out.length }

theorem sameBlock_delivered (s : State) (out : List F32) (rest : List HostOp) : s.SameBlock (s.delivered out rest) :=
  ⟨rfl, ⟨rfl, rfl, rfl⟩, rfl, rfl, rfl, rfl, rfl⟩

theorem accepts_delivered {s : State} {n : Count} {fs ff : F32} (h : s.Accepts n fs ff) (out : List F32)
    (rest : List HostOp) : (s.delivered out rest).Accepts n fs ff := h

section Rows

variable {N : DrawnNumerics} {s : State} {n : Count} {fs ff : F32} {words : List Word16} {out : List F32}
  {rest : List HostOp}

/-- `TAKE_ROW` returns the values accepted and leaves the block at word 0 again (42_row_and_host_ops.md R86). -/
theorem perform_takeRow_accepted (hinv : s.Inv) (h : s.Accepts n fs ff) (hidx : s.idx = 0) (hlen : out.length = n.toNat) :
    perform .takeRow (s.accepted n out rest) = .next (s.delivered out rest) := by
  have hout := hinv.out_eq_emptyRow h hidx
  have hmax := hinv.count_le h
  obtain ⟨hrun, hrow, hcount, -⟩ := h
  have hvalues : rowValues (s.accepted n out rest).out n.toNat = some out :=
    hlen ▸ rowValues_bufferOf (hlen.trans_le hmax)
  rw [perform_takeRow_of_rowValues (s := s.accepted n out rest) hrun (decide_eq_true hlen) hcount hvalues]
  simp [addReply, releaseRow, State.accepted, State.delivered, hlen, ← hout, ← hrow, hidx]

/-- Pushing the words of a row that decodes. -/
theorem run_words_of_decodeRow (hinv : s.Inv) (h : s.Accepts n fs ff) (hidx : s.idx = 0)
    (hpending : s.pending = words.map .push ++ rest) (hrow : decodeRow N s.draws words n.toNat fs ff = some (.ok out)) :
    (coreWith N).run n.toNat s = .next (s.accepted n out rest) ∧ out.length = n.toNat := by
  obtain ⟨⟨hlen, hmax⟩, hfrom⟩ := decodeRow_eq_some_iff.mp hrow
  have hrun := run_accepted_of_ok (N := N) h hmax words [] out rest (by simp [hlen]) hfrom
  rw [← hpending, hinv.accepted_nil h hidx, hlen] at hrun
  exact ⟨hrun, (decodeRowFrom_length hfrom).trans hlen⟩

/-- Pushing and taking a row that decodes. -/
theorem run_row_of_decodeRow (hinv : s.Inv) (h : s.Accepts n fs ff) (hidx : s.idx = 0)
    (hpending : s.pending = words.map .push ++ .takeRow :: rest)
    (hrow : decodeRow N s.draws words n.toNat fs ff = some (.ok out)) :
    (coreWith N).run (n.toNat + 1) s = .next (s.delivered out rest) ∧ out.length = n.toNat := by
  obtain ⟨hpushed, hlen⟩ := run_words_of_decodeRow hinv h hidx hpending hrow
  have hpop : stepWith N (s.accepted n out (.takeRow :: rest)) = performTakeRow (s.accepted n out rest) :=
    performNext_of_pending (s := s.accepted n out (.takeRow :: rest)) rfl (execWith N)
  have htake := hpop.trans (perform_takeRow_accepted hinv h hidx hlen)
  refine ⟨?_, hlen⟩
  rw [hostCore_run_add (coreWith N) hpushed, coreWith_run_succ htake]
  rfl

/-- Pushing words of which one does not fit its position: the record is the loop's error, and the row is gone
(60_exceptions.md R97). -/
theorem run_words_of_error (hinv : s.Inv) (h : s.Accepts n fs ff) (hidx : s.idx = 0)
    (hpending : s.pending = words.map .push ++ rest) (hlen : words.length ≤ n.toNat) {e : SyncBitViolation}
    (hrow : decodeRowFrom N s.draws 0 words fs ff = .error e) :
    ∃ us later, words[e.index]? = some e.word ∧ (s.accepted n us later).idx.toNat = e.index ∧
      (s.accepted n us later).rowValid = false ∧
      (coreWith N).run (e.index + 1) s = .next (raiseSyncBitViolation e.word (s.accepted n us later)) := by
  have hmax := hinv.count_le h
  obtain ⟨k, us, later, hk, hw, hus, hrun⟩ :=
    run_accepted_of_error (N := N) h hmax words [] rest e (by simpa using hlen) hrow
  obtain rfl : e.index = k := by simpa using hk
  obtain ⟨hlt, -⟩ := List.getElem?_eq_some_iff.mp hw
  rw [← hpending, hinv.accepted_nil h hidx] at hrun
  have huslt : us.length < n.toNat := hus.trans_lt (hlt.trans_le hlen)
  exact ⟨us, later, hw, (toNat_idx_accepted huslt hmax later).trans hus, decide_eq_false huslt.ne, hrun⟩

end Rows

/-! ## Positions of another row length -/

/-- Word 0 of a row fits exactly when it is a `FIRST` word (30_encoding.md R43). -/
theorem syncOk_zero_iff_first (w : Word16) : syncOk 0 w = true ↔ ∃ r, decodeWord w = .first r := by
  constructor
  · intro hok
    obtain ⟨-, hfirst⟩ | ⟨hne, -⟩ := (syncOk_iff_decodeWord 0 w).mp hok
    · exact ⟨_, hfirst⟩
    · exact absurd rfl hne
  · rintro ⟨r, hr⟩
    refine (syncOk_iff_decodeWord 0 w).mpr (.inl ⟨rfl, ?_⟩)
    rw [← raw14_decodeWord, hr]
    rfl

/-- A word that fits word 0 of a row fits no later position (30_encoding.md R43). -/
theorem syncOk_of_syncOk_zero {j : Nat} {w : Word16} (h : syncOk 0 w = true) (hj : 0 < j) : syncOk j w = false := by
  obtain ⟨-, hlow⟩ := (syncOk_iff_bits 0 w).mp h
  rw [syncOk_eq_bits, hlow]
  simp [hj.ne']

/-- A word that fits a later position does not fit word 0 of a row (30_encoding.md R43). -/
theorem syncOk_zero_of_syncOk_pos {j : Nat} {w : Word16} (h : syncOk j w = true) (hj : 0 < j) : syncOk 0 w = false := by
  obtain ⟨-, hlow⟩ := (syncOk_iff_bits j w).mp h
  exact syncOk_zero_of_bit_zero (hlow.trans (decide_eq_true hj.ne'))

/-- The first words of a stream of rows of `c` words fit as the words of one row, up to `c` (20_memory.md R29). -/
theorem syncOk_take_of_stream {words : List Word16} {c k : Nat}
    (hlegal : ∀ (p : Nat) (w : Word16), words[p]? = some w → syncOk (p % c) w = true) {i : Nat} {w : Word16} (hi : i < c)
    (hw : (words.take k)[i]? = some w) : syncOk i w = true := by
  rw [List.getElem?_take] at hw
  split_ifs at hw
  have hfit := hlegal i w hw
  rwa [Nat.mod_eq_of_lt hi] at hfit

/-! ## The statements -/

/-- Settles O37: the domain is `rowWf`, and word 0 fits exactly when it is a `FIRST` word. -/
theorem rowFunctionDomain : Obligations.RowFunctionDomain := by
  refine ⟨fun N d n words fs ff => ?_, fun N d fs ff => rfl, fun N d w fs ff => ?_⟩
  · have hdomain : decodeRow N d words n fs ff = none ↔ ¬ rowWf words n = true := by
      rw [decodeRow]
      split_ifs with hwf <;> simp [hwf]
    rw [hdomain, rowWf_iff]
    omega
  · rw [← syncOk_zero_iff_first]
    constructor
    · rintro ⟨v, hrow⟩
      obtain ⟨-, hfrom⟩ := decodeRow_eq_some_iff.mp hrow
      obtain ⟨hok, -⟩ := decodeRowFrom_cons_eq_ok hfrom
      exact hok
    · intro hok
      refine ⟨rowSample N d fs ff 0 w, decodeRow_eq_some_iff.mpr ⟨⟨rfl, by decide⟩, ?_⟩⟩
      rw [decodeRowFrom_cons_of_syncOk hok]
      rfl

/-- Settles O38: the loop, lane by lane. -/
theorem lanesAgreeWithRow : Obligations.LanesAgreeWithRow := by
  intro N d n words fs ff hwf
  rw [decodeRow_of_rowWf hwf, decodeRowFrom_eq_mapM_lanes, decodeLanes, lane_eq_laneFrom]

/-- Settles O39: after the pushes the buffer is filled with the row function's values, which `TAKE_ROW` collects. -/
theorem pushedRowIsDecodedRow : Obligations.PushedRowIsDecodedRow := by
  intro N s words rest n fs ff out hinv h hidx hpending hrow
  obtain ⟨hrun, hlen⟩ := run_words_of_decodeRow hinv h hidx hpending hrow
  have htake := perform_takeRow_accepted (rest := rest) hinv h hidx hlen
  rw [State.delivered, hlen] at htake
  obtain ⟨hphase, -⟩ := h
  exact ⟨s.accepted n out rest, hrun, hphase, if_pos hlen, decide_eq_true hlen, rfl, rfl,
    fun j _ => readOut_bufferOf out j, htake⟩

/-- Settles O40: the pushes before the first bad word are accepted, and that word raises the violation. -/
theorem pushedRowFaultsAsDecodedRow : Obligations.PushedRowFaultsAsDecodedRow := by
  intro N s words rest n fs ff e hinv h hidx hpending hrow
  obtain ⟨⟨hlen, -⟩, hfrom⟩ := decodeRow_eq_some_iff.mp hrow
  obtain ⟨us, later, hw, hindex, hvalid, hrun⟩ := run_words_of_error hinv h hidx hpending hlen.le hfrom
  refine ⟨_, hrun, rfl, rfl, rfl, hindex, hw, hvalid, readOut_emptyRow, ⟨rfl, rfl, rfl⟩, rfl, fun v => ?_⟩
  exact execWith_of_pushCount_none (pushCount_of_phase_ne_run (by simp)) N _

/-- Settles O41, by induction on the rows: each leaves the block as it was before. -/
theorem streamOfRowsIsDeliveredInOrder : Obligations.StreamOfRowsIsDeliveredInOrder := by
  intro N rows
  induction rows with
  | nil =>
    intro s rest n fs ff _ _ _ hpending _
    refine ⟨s, [], ?_, ⟨rfl, ⟨rfl, rfl, rfl⟩, rfl, rfl, rfl, rfl, rfl⟩, hpending, by simp, rfl, by simp⟩
    rw [List.length_nil, Nat.zero_mul]
    rfl
  | cons row rows ih =>
    intro s rest n fs ff hinv h hidx hpending hlegal
    obtain ⟨hwf, hok⟩ := hlegal row List.mem_cons_self
    obtain ⟨hmeaning, -⟩ := rowFunctionMeaning N s.draws n.toNat row fs ff hwf
    obtain ⟨out, hrow, -⟩ := hmeaning hok
    have hpending' : s.pending = row.map .push ++ .takeRow ::
        (rows.flatMap (fun row => row.map .push ++ [.takeRow]) ++ rest) := by
      rw [hpending, List.flatMap_cons]
      simp
    obtain ⟨hrun, hlen⟩ := run_row_of_decodeRow hinv h hidx hpending' hrow
    obtain ⟨t, outs, hruns, hsame, hrest, hreplies, houts, hdecoded⟩ := ih _ rest n fs ff
      (hinv.of_sameBlock (sameBlock_delivered s out _)) (accepts_delivered h out _) hidx rfl
      fun row hmem => hlegal row (List.mem_cons_of_mem _ hmem)
    refine ⟨t, out :: outs, ?_, hsame, hrest, ?_, ?_, fun k row' hk => ?_⟩
    · rw [List.length_cons, Nat.succ_mul, Nat.add_comm, hostCore_run_add (coreWith N) hrun, hruns]
    · rw [hreplies, State.delivered]
      simp
    · rw [List.length_cons, List.length_cons, houts]
    · cases k with
      | zero =>
        cases hk
        exact ⟨out, rfl, by rwa [Nat.zero_mul, Nat.add_zero]⟩
      | succ k =>
        obtain ⟨us, hus, hdec⟩ := hdecoded k row' hk
        refine ⟨us, hus, ?_⟩
        rw [State.delivered, hlen] at hdec
        rw [Nat.succ_mul, Nat.add_comm (k * n.toNat), ← Nat.add_assoc]
        exact hdec

/-- Settles O42: the first word at which a position of the device's row is not one of the block's. -/
theorem wrongChannelCountFaultPosition : Obligations.WrongChannelCountFaultPosition := by
  intro N s words n fs ff c hinv h hidx hc _ hlegal
  refine ⟨fun hlt w rest hw hpending => ?_, fun hlt w rest hw hpending => ?_⟩
  · have hfirst : syncOk 0 w = true := Nat.mod_self c ▸ hlegal c w hw
    have herror := decodeRowFrom_of_least_violation N fs ff (words.take (c + 1)) s.draws 0 c w (by simpa using hw)
      (syncOk_of_syncOk_zero hfirst (by omega)) fun k v hk hv => (Nat.zero_add k).symm ▸ syncOk_take_of_stream hlegal hk hv
    rw [Nat.zero_add] at herror
    obtain ⟨us, later, -, hindex, -, hrun⟩ := run_words_of_error hinv h hidx hpending (by simp; omega) herror
    exact ⟨_, hrun, rfl, hindex, rfl, rfl, rfl⟩
  · obtain ⟨hnw, -⟩ := List.getElem?_eq_some_iff.mp hw
    have hmax := hinv.count_le h
    have hpos : 0 < n.toNat := by
      obtain ⟨-, -, -, hpos, -⟩ := h
      exact hpos
    have hlater : syncOk n.toNat w = true := Nat.mod_eq_of_lt hlt ▸ hlegal n.toNat w hw
    have hwf : rowWf (words.take n.toNat) n.toNat = true := (rowWf_iff _ _).mpr ⟨by simp; omega, hmax⟩
    obtain ⟨hmeaning, -⟩ := rowFunctionMeaning N s.draws n.toNat (words.take n.toNat) fs ff hwf
    obtain ⟨out, hrow, -⟩ := hmeaning fun j v hv => by
      obtain ⟨hj, -⟩ := List.getElem?_eq_some_iff.mp hv
      exact syncOk_take_of_stream hlegal ((hj.trans_le (List.length_take_le _ _)).trans hlt) hv
    obtain ⟨hrun, hlen⟩ := run_row_of_decodeRow hinv h hidx hpending hrow
    have hstart : (s.delivered out (.push w :: rest)).accepted n [] (.push w :: rest) = s.delivered out (.push w :: rest) :=
      (hinv.of_sameBlock (sameBlock_delivered s out _)).accepted_nil (accepts_delivered h out _) hidx
    have hstep := stepWith_accepted_of_not_syncOk (N := N) (vs := []) (accepts_delivered h out (.push w :: rest)) hmax hpos
      (syncOk_zero_of_syncOk_pos hlater hpos) rest
    rw [hstart] at hstep
    have hzero : ((s.delivered out (.push w :: rest)).accepted n [] rest).idx = 0 := if_neg hpos.ne
    refine ⟨raiseSyncBitViolation w ((s.delivered out (.push w :: rest)).accepted n [] rest), out, ?_, rfl, hzero,
      congrArg some hzero, rfl, hlen, hrow, rfl⟩
    rw [hostCore_run_add (coreWith N) (m := 1) hrun, coreWith_run_succ hstep]
    rfl

end Sys2Proof.Machine

/-! PROOFS of the further statements about 41_numerics.md: exactness of the centred code, rounding to nearest of the three
operations, and the laws of multiplication. -/

namespace Sys2Proof.Machine

/-! ## The centred code as a number -/

/-- The centred code in units: `r - 8192` steps of 2^136 (41_numerics.md R68). -/
theorem signedUnits_centredInteger (r : Code14) :
    F32.signedUnits (centredInteger r) = ((r.toNat : Int) - 8192) * 2 ^ 136 := by
  have h := signedUnits_centredWith 0 r
  rw [centredWith_eq, F32.unit] at h
  push_cast at h
  omega

end Sys2Proof.Machine

namespace Sys2Proof.Machine.F32

/-- A pattern with a clear sign is its magnitude. -/
theorem signedUnits_of_sign_eq_false {x : F32} (h : sign x = false) : signedUnits x = units x := by
  simp [signedUnits, h]

/-- The sign of a pattern, given as a proposition, is the sign of its value. -/
theorem signedUnits_of_sign_eq_decide {x : F32} {p : Prop} [Decidable p] (h : sign x = decide p) :
    signedUnits x = if p then -(units x : Int) else units x := by
  simp [signedUnits, h]

/-! ## Nearest, ties to even -/

/-- A rounded magnitude that is finite has not been cut off at the infinity. -/
theorem roundMag_of_lt {num den : Nat} (h : roundMag num den < infBits) : roundMag num den = rawMag num den := by
  rw [roundMag_eq] at h ⊢
  omega

/-- A finite pattern of a rounded magnitude has the magnitude bits before the cut-off. -/
theorem magBits_of_isFinite {s : Bool} {num den : Nat} (h : isFinite (pack s (roundMag num den)) = true) :
    magBits (pack s (roundMag num den)) = rawMag num den := by
  rw [isFinite_pack _ _ (roundMag_le num den), decide_eq_true_eq] at h
  rw [magBits_pack _ _ (roundMag_lt num den), roundMag_of_lt h]

/-- A finite result is nearest to the exact magnitude among all magnitudes, and even in a tie (41_numerics.md R65). -/
theorem nearest_of_isFinite {s : Bool} {num den : Nat} (hden : 0 < den)
    (h : isFinite (pack s (roundMag num den)) = true) (c : F32) :
    ((num : Int) - units (pack s (roundMag num den)) * den).natAbs ≤ ((num : Int) - units c * den).natAbs ∧
      (((num : Int) - units (pack s (roundMag num den)) * den).natAbs = ((num : Int) - units c * den).natAbs →
        units c ≠ units (pack s (roundMag num den)) → magBits (pack s (roundMag num den)) % 2 = 0) := by
  have hmag := magBits_of_isFinite h
  rw [units, hmag]
  exact rawMag_nearest num den (magBits c) hden

/-- A quotient by a finite nonzero value is the exact one, rounded once (41_numerics.md R64). -/
theorem fdiv_finite {d : BitVec 23} {a b : F32} (ha : isFinite a = true) (hb : isFinite b = true)
    (hz : isZero b = false) : fdiv d a b = pack (sign a ^^ sign b) (roundMag (units a * unit) (units b)) := by
  simp [fdiv, isNaN_of_isFinite ha, isNaN_of_isFinite hb, isInf_of_isFinite ha, isInf_of_isFinite hb, hz]

/-- A difference of finite values (41_numerics.md R64): a zero where they are equal, else the exact one, rounded once. -/
theorem fsub_finite {d : BitVec 23} {a b : F32} (ha : isFinite a = true) (hb : isFinite b = true) :
    fsub d a b = if signedUnits a = signedUnits b then pack (isZero a && sign a && !sign b) 0
      else pack (decide (signedUnits a < signedUnits b)) (roundMag (signedUnits a - signedUnits b).natAbs 1) := by
  simp [fsub, isNaN_of_isFinite ha, isNaN_of_isFinite hb, isInf_of_isFinite ha, isInf_of_isFinite hb]

theorem units_pos_of_not_isZero {x : F32} (h : isZero x = false) : 0 < units x :=
  Nat.pos_of_ne_zero fun h0 => by simp [(isZero_iff_units x).mpr h0] at h

/-- Nearest in magnitude with the exact sign is nearest as a signed number: `D` is the exact value, `u` and `v` the
magnitudes of the result and of another value of sign `s`. -/
theorem nearest_signed {D : Int} {u v : Nat} {s even : Prop} [Decidable s] (hD : D ≠ 0)
    (hnear : ((D.natAbs : Int) - u).natAbs ≤ ((D.natAbs : Int) - v).natAbs)
    (htie : ((D.natAbs : Int) - u).natAbs = ((D.natAbs : Int) - v).natAbs → v ≠ u → even) :
    (D - if D < 0 then -(u : Int) else u).natAbs ≤ (D - if s then -(v : Int) else v).natAbs ∧
      ((D - if D < 0 then -(u : Int) else u).natAbs = (D - if s then -(v : Int) else v).natAbs →
        ((if s then -(v : Int) else v) ≠ if D < 0 then -(u : Int) else u) → even) := by
  split_ifs <;> exact ⟨by omega, fun heq hne => htie (by omega) (by omega)⟩

/-- A finite difference of finite values is nearest to the exact one, and even in a tie (41_numerics.md R65). -/
theorem fsub_nearest {d : BitVec 23} {a b : F32} (ha : isFinite a = true) (hb : isFinite b = true)
    (hfin : isFinite (fsub d a b) = true) (c : F32) :
    (signedUnits a - signedUnits b - signedUnits (fsub d a b)).natAbs ≤
        (signedUnits a - signedUnits b - signedUnits c).natAbs ∧
      ((signedUnits a - signedUnits b - signedUnits (fsub d a b)).natAbs =
          (signedUnits a - signedUnits b - signedUnits c).natAbs →
        signedUnits c ≠ signedUnits (fsub d a b) → magBits (fsub d a b) % 2 = 0) := by
  rw [fsub_finite ha hb] at hfin ⊢
  split_ifs at hfin ⊢ with heq
  · have hzero : ∀ s, signedUnits (pack s 0) = 0 := by decide
    rw [hzero, heq, sub_self]
    exact ⟨by simp, fun h hne => absurd (by simpa using h.symm) hne⟩
  · have hD : signedUnits a - signedUnits b ≠ 0 := sub_ne_zero.mpr heq
    obtain ⟨hle, htie⟩ := nearest_of_isFinite Nat.one_pos hfin c
    rw [signedUnits_of_sign_eq_decide ((sign_pack _ _ (roundMag_lt _ _)).trans (decide_eq_decide.mpr sub_neg.symm))]
    simp only [Nat.cast_one, mul_one] at hle htie
    exact nearest_signed (s := sign c = true) hD hle htie

/-! ## The laws of multiplication -/

theorem fmul_comm (d : BitVec 23) (x y : F32) : fmul d x y = fmul d y x := by
  unfold fmul
  rw [Bool.or_comm (isNaN x), Bool.or_comm (isInf x && isZero y), Bool.and_comm (isInf x), Bool.and_comm (isZero x),
    Bool.or_comm (isInf x), Bool.xor_comm, Nat.mul_comm]

theorem neg_neg (x : F32) : neg (neg x) = x := by
  rw [neg, neg, BitVec.xor_assoc, BitVec.xor_self, BitVec.xor_zero]

theorem sign_neg (x : F32) : sign (neg x) = !sign x := by
  rw [neg_eq_pack, sign_pack _ _ (magBits_lt x)]

@[simp] theorem magBits_neg (x : F32) : magBits (neg x) = magBits x := by
  rw [neg_eq_pack, magBits_pack _ _ (magBits_lt x)]

@[simp] theorem units_neg (x : F32) : units (neg x) = units x := by
  rw [units, magBits_neg, units]

theorem isFinite_neg (x : F32) : isFinite (neg x) = isFinite x := by
  rw [isFinite, magBits_neg, isFinite]

theorem order_neg (x : F32) : order (neg x) = -order x := by
  rw [order, order, sign_neg, magBits_neg]
  cases sign x <;> simp

/-- A sign moves out of a product of finite values (41_numerics.md R65). -/
theorem fmul_neg_left {d : BitVec 23} {x y : F32} (hx : isFinite x = true) (hy : isFinite y = true) :
    fmul d (neg x) y = neg (fmul d x y) := by
  rw [fmul_finite ((isFinite_neg x).trans hx) hy, neg_eq_pack (fmul d x y), sign_fmul_finite hx hy,
    magBits_fmul_finite hx hy, sign_neg, units_neg, Bool.not_xor]

/-- The magnitude bits of a product with `x`, as a function of the other factor's: an infinity stays one. -/
def scaledMag (x : F32) (m : Nat) : Nat := if m = infBits then infBits else roundMag (units x * unitsOfMag m) unit

theorem scaledMag_le (x : F32) (m : Nat) : scaledMag x m ≤ infBits := by
  unfold scaledMag
  split_ifs
  · exact le_rfl
  · exact roundMag_le _ _

theorem scaledMag_mono (x : F32) {m n : Nat} (h : m ≤ n) (hn : n ≤ infBits) : scaledMag x m ≤ scaledMag x n := by
  by_cases hinf : n = infBits
  · exact (scaledMag_le x m).trans (if_pos hinf).ge
  · have hm : m ≠ infBits := by omega
    rw [scaledMag, scaledMag, if_neg hm, if_neg hinf]
    exact roundMag_mono (Nat.mul_le_mul_left _ (unitsOfMag_le_iff.mpr h))

theorem scaledMag_zero (x : F32) : scaledMag x 0 = 0 := by
  have hround : roundMag (units x * unitsOfMag 0) unit = 0 := by
    rw [unitsOfMag_lt (by decide), Nat.mul_zero]
    decide
  exact (if_neg (by decide)).trans hround

/-- Multiplication by a finite value above zero keeps the sign and scales the magnitude (41_numerics.md R75). -/
theorem fmul_of_pos {d : BitVec 23} {x a : F32} (hx : isFinite x = true) (hpos : 0 < order x) (ha : isNaN a = false) :
    fmul d x a = pack (sign a) (scaledMag x (magBits a)) := by
  have hsign : sign x = false := by
    by_contra hs
    rw [order, if_pos (by simpa using hs)] at hpos
    omega
  rcases isInf_or_isFinite_of_not_isNaN ha with hinf | hfin
  · have hmag : magBits x ≠ 0 := fun h0 => by simp [order, hsign, h0] at hpos
    have hx0 : isZero x = false := decide_eq_false hmag
    have ha0 : magBits a = infBits := of_decide_eq_true hinf
    simp [fmul, isNaN_of_isFinite hx, isInf_of_isFinite hx, ha, hinf, hx0, hsign, scaledMag, ha0]
  · have hne : magBits a ≠ infBits := (of_decide_eq_true hfin).ne
    rw [fmul_finite hx hfin, hsign, Bool.false_xor, scaledMag, if_neg hne, units, units]

theorem order_pack (s : Bool) {m : Nat} (hm : m ≤ infBits) : order (pack s m) = if s then -(m : Int) else m := by
  have hlt : m < 2 ^ 31 := hm.trans_lt (by decide)
  rw [order, sign_pack s m hlt, magBits_pack s m hlt]

/-- Multiplication by a finite value above zero keeps the order (41_numerics.md R75, N-MONO). -/
theorem order_fmul_mono {d : BitVec 23} {x a b : F32} (hx : isFinite x = true) (hpos : 0 < order x)
    (ha : isNaN a = false) (hb : isNaN b = false) (hab : order a ≤ order b) :
    order (fmul d x a) ≤ order (fmul d x b) := by
  have hle : ∀ {y : F32}, isNaN y = false → magBits y ≤ infBits := fun hy => Nat.le_of_not_lt (of_decide_eq_false hy)
  rw [fmul_of_pos hx hpos ha, fmul_of_pos hx hpos hb, order_pack _ (scaledMag_le x _), order_pack _ (scaledMag_le x _)]
  rw [order, order] at hab
  cases hsa : sign a <;> cases hsb : sign b <;> simp only [hsa, hsb, Bool.false_eq_true, if_true, if_false] at hab ⊢
  · exact_mod_cast scaledMag_mono x (by omega) (hle hb)
  · have hza : magBits a = 0 := by omega
    have hzb : magBits b = 0 := by omega
    simp [hza, hzb, scaledMag_zero]
  · omega
  · have hmono := scaledMag_mono x (m := magBits b) (n := magBits a) (by omega) (hle ha)
    omega

end Sys2Proof.Machine.F32

namespace Sys2Proof.Machine

/-! ## The statements -/

/-- Settles O19: codes have 14 bits, and a division by 2^13 only moves the exponent. -/
theorem centredCodeIsExact : Obligations.CentredCodeIsExact := by
  intro d r
  have hr : r.toNat < 2 ^ 15 := r.isLt.trans (by decide)
  obtain ⟨hu, -, hus⟩ := u2f_code r.toNat hr
  obtain ⟨hq, -, hqs⟩ := fdiv_code d r.toNat hr
  have hsteps := signedUnits_centredWith d
  refine ⟨?_, ?_, ?_, hsteps r, ?_, ?_, ?_, fun q hqr => ?_⟩
  · exact (F32.signedUnits_of_sign_eq_false hus).trans (by rw [hu]; rfl)
  · have hdiv : F32.signedUnits (F32.fdiv d (F32.u2f r.toNat) Config.f8192) = r.toNat * 2 ^ 136 := by
      rw [F32.signedUnits_of_sign_eq_false hqs, hq]
      push_cast
      rfl
    calc F32.signedUnits (F32.fdiv d (F32.u2f r.toNat) Config.f8192) * 8192
      _ = r.toNat * 2 ^ 136 * 8192 := by rw [hdiv]
      _ = r.toNat * F32.unit := by
        rw [F32.unit]
        push_cast
        ring
  · rw [centredWith_eq]
    exact isFinite_centredInteger r
  · rw [centredWith_eq, centredInteger_least]
  · rw [centredWith_eq, centredInteger_middle]
  · rw [centredWith_eq, centredInteger_greatest]
  · rw [sub_mul, hsteps, hsteps, hqr]
    push_cast
    ring

/-- Settles O20: the integer form is the centred code, by `centredWith_eq`. -/
theorem integerFormEqualsCentredCode : Obligations.IntegerFormEqualsCentredCode := by
  intro d r
  have hr : r.toNat < 2 ^ 14 := r.isLt
  refine ⟨(centredWith_eq d r).symm, by omega, signedUnits_centredInteger r, fun h => ?_⟩
  obtain rfl : r = 8192 := BitVec.eq_of_toNat_eq h
  exact centredInteger_middle

/-- Settles O21: the product is the exact one, rounded once. -/
theorem productRoundsToNearestEven : Obligations.ProductRoundsToNearestEven := by
  intro d a b ha hb hfin
  refine ⟨F32.sign_fmul_finite ha hb, fun c _ => ?_⟩
  rw [F32.fmul_finite ha hb] at hfin ⊢
  exact_mod_cast F32.nearest_of_isFinite F32.unit_pos hfin c

/-- Settles O22: quotient and difference are the exact ones, rounded once. -/
theorem quotientAndDifferenceRoundToNearestEven : Obligations.QuotientAndDifferenceRoundToNearestEven := by
  refine fun d a b ha hb => ⟨fun hz hfin => ?_, fun hfin c _ => F32.fsub_nearest ha hb hfin c⟩
  rw [F32.fdiv_finite ha hb hz] at hfin ⊢
  refine ⟨F32.sign_pack _ _ (F32.roundMag_lt _ _), fun c _ => ?_⟩
  exact_mod_cast F32.nearest_of_isFinite (F32.units_pos_of_not_isZero hz) hfin c

/-- Settles O23: a factor of magnitude one keeps the magnitude, and its sign flips the sign. -/
theorem mulByMinusOneFlipsSign : Obligations.MulByMinusOneFlipsSign :=
  fun _ _ hx => F32.fmul_negOne hx

/-- Settles O24: a factor of magnitude one keeps the magnitude, and a zero gives a zero. -/
theorem mulByOneAndByZero : Obligations.MulByOneAndByZero := by
  refine fun d x => ⟨fun hx => ?_, fun hx => ?_⟩
  · have hone := F32.fmul_of_units_eq_unit (d := d) hx (y := 0x3F800000#32) (by decide) (by decide)
    rw [show F32.sign 0x3F800000#32 = false by decide, Bool.xor_false, F32.pack_self] at hone
    exact hone
  · have hzero := F32.fmul_zero (d := d) hx (b := 0x00000000#32) (by decide) (.inr (by decide))
    rw [show F32.sign 0x00000000#32 = false by decide, Bool.xor_false] at hzero
    exact hzero

/-- Settles O25: each branch of the product is symmetric in its operands. -/
theorem mulCommutes : Obligations.MulCommutes := F32.fmul_comm

/-- Settles O26: the magnitude is scaled monotonically, and a zero to a zero. -/
theorem mulByPositiveIsMonotone : Obligations.MulByPositiveIsMonotone :=
  fun _ _ _ _ hx hpos ha hb hab => F32.order_fmul_mono hx hpos ha hb hab

/-- Settles O27: each operation looks at NaN operands first, and the product then at an infinity and a zero. -/
theorem nanOperandsGiveQuietNaN : Obligations.NaNOperandsGiveQuietNaN := by
  refine fun d a b => ⟨fun h => ?_, fun h => ?_⟩
  · have hnan : (F32.isNaN a || F32.isNaN b) = true := Bool.or_eq_true_iff.mpr h
    have hdiv : F32.fdiv d a b = F32.quietNaN d := if_pos hnan
    have hsub : F32.fsub d a b = F32.quietNaN d := if_pos hnan
    rw [F32.fmul_of_isNaN h, hdiv, hsub]
    exact ⟨F32.classify_quietNaN d, F32.classify_quietNaN d, F32.classify_quietNaN d⟩
  · rw [F32.fmul_inf_zero h, F32.classify_quietNaN]

/-- Settles O32: the products in their order, and the vector evaluated. -/
theorem productOrderIsAsDecided : Obligations.ProductOrderIsAsDecided := by
  refine ⟨fun N r fs ff => rfl, fun d => ?_⟩
  have hK : F32.fmul d 0x3F824DD3#32 0x41200000#32 = 0x4122E148#32 := by
    rw [F32.fmul_finite (by decide) (by decide)]
    decide
  have hother : F32.fmul d 0x41200000#32 (centredInteger 10000) = 0x400D4000#32 := by
    rw [F32.fmul_finite (by decide) (isFinite_centredInteger 10000)]
    decide
  refine ⟨hK, ?_, ?_⟩
  · rw [calibrate_eq, hK, F32.fmul_finite (by decide) (isFinite_centredInteger 10000)]
    decide
  · rw [centredWith_eq, hother, F32.fmul_finite (by decide) (by decide)]
    decide

end Sys2Proof.Machine

/-! PROOFS of the statements about the calibration as a whole: overflow (41_numerics.md R72), and the range, order and
injectivity of the results under a finite `K` (40_frame_words.md R62). -/

namespace Sys2Proof.Machine.F32

/-! ## Infinities -/

theorem not_isNaN_of_isInf {x : F32} (h : isInf x = true) : isNaN x = false :=
  decide_eq_false (of_decide_eq_true h).not_gt

theorem not_isZero_of_isInf {x : F32} (h : isInf x = true) : isZero x = false :=
  decide_eq_false fun h0 => absurd ((of_decide_eq_true h).symm.trans h0) (by decide)

/-- An infinity is its sign. -/
theorem eq_pack_of_isInf {x : F32} (h : isInf x = true) : x = pack (sign x) infBits := by
  rw [← of_decide_eq_true h, pack_self]

/-- The infinity with a given sign bit. -/
theorem pack_infBits (s : Bool) : pack s infBits = if s = true then 0xFF800000#32 else 0x7F800000#32 := by
  cases s <;> rfl

/-- An infinity times a value that is no NaN and no zero is an infinity, of the signs' exclusive or
(41_numerics.md R72). -/
theorem fmul_of_isInf {d : BitVec 23} {a b : F32} (ha : isInf a = true) (hzero : isZero b = false)
    (hnan : isNaN b = false) : fmul d a b = pack (sign a ^^ sign b) infBits := by
  simp [fmul, ha, not_isNaN_of_isInf ha, not_isZero_of_isInf ha, hzero, hnan]

/-- A product reaches the infinity from half a unit in the last place above the greatest finite value on
(41_numerics.md R72). -/
theorem infBits_le_rawMag_iff (num : Nat) : infBits ≤ rawMag num unit ↔ (2 ^ 25 - 1) * 2 ^ 252 * unit ≤ num := by
  constructor
  · intro h
    by_contra hlt
    have hbelow : rawMag num unit ≤ rawMag ((2 ^ 25 - 1) * 2 ^ 252 * unit - 1) unit := rawMag_mono (by omega)
    exact absurd (h.trans hbelow) (by decide)
  · intro h
    have hat : infBits ≤ rawMag ((2 ^ 25 - 1) * 2 ^ 252 * unit) unit := by decide
    exact hat.trans (rawMag_mono h)

theorem isInf_fmul_iff {d : BitVec 23} {a b : F32} (ha : isFinite a = true) (hb : isFinite b = true) :
    isInf (fmul d a b) = true ↔ (2 ^ 25 - 1) * 2 ^ 252 * unit ≤ units a * units b := by
  rw [isInf, magBits_fmul_finite ha hb, decide_eq_true_eq, roundMag_eq, min_eq_left_iff, infBits_le_rawMag_iff]

/-- A finite value times one of at most one in magnitude does not grow (40_frame_words.md R62). -/
theorem magBits_fmul_le {d : BitVec 23} {a b : F32} (ha : isFinite a = true) (hb : isFinite b = true)
    (hle : units b ≤ unit) : magBits (fmul d a b) ≤ magBits a := by
  have hself : roundMag (units a * unit) unit = magBits a :=
    roundMag_of_units _ _ unit_pos (of_decide_eq_true ha).le
  rw [magBits_fmul_finite ha hb, ← hself]
  exact roundMag_mono (Nat.mul_le_mul_left _ hle)

theorem isFinite_fmul_of_units_le {d : BitVec 23} {a b : F32} (ha : isFinite a = true) (hb : isFinite b = true)
    (hle : units b ≤ unit) : isFinite (fmul d a b) = true :=
  decide_eq_true ((magBits_fmul_le ha hb hle).trans_lt (of_decide_eq_true ha))

/-! ## Order -/

/-- Patterns are ordered as their values (41_numerics.md R63). -/
theorem order_le_of_signedUnits_le {x y : F32} (h : signedUnits x ≤ signedUnits y) : order x ≤ order y := by
  have hmag : ∀ a b : F32, units a ≤ units b ↔ magBits a ≤ magBits b := fun a b => unitsOfMag_le_iff
  have hxy := hmag x y
  have hyx := hmag y x
  have hx := isZero_iff_units x
  have hy := isZero_iff_units y
  rw [isZero, decide_eq_true_eq] at hx hy
  rw [signedUnits, signedUnits] at h
  rw [order, order]
  split_ifs at h ⊢ <;> omega

/-! ## How far rounding moves a magnitude -/

/-- Rounding moves a magnitude by at most half a unit in the last place (41_numerics.md R65). -/
theorem rawMag_error (num den : Nat) (hden : 0 < den) :
    2 * ((num : Int) - unitsOfMag (rawMag num den) * den).natAbs ≤ den * 2 ^ ulpExp (num / den) := by
  have hscale : ((roundDiv num (den * 2 ^ ulpExp (num / den)) * 2 ^ ulpExp (num / den) : Nat) : Int) * den =
      roundDiv num (den * 2 ^ ulpExp (num / den)) * ((den * 2 ^ ulpExp (num / den) : Nat) : Int) := by
    push_cast
    ring
  rw [unitsOfMag_rawMag, hscale]
  exact roundDiv_error num _ (by positivity)

/-- Two magnitudes rounded to the same value are at most one unit in the last place of the greater one apart. -/
theorem sub_le_of_rawMag_eq {m n den : Nat} (hden : 0 < den) (hmn : m ≤ n) (h : rawMag m den = rawMag n den) :
    n - m ≤ den * 2 ^ ulpExp (n / den) := by
  have hm := rawMag_error m den hden
  have hn := rawMag_error n den hden
  have hulp : den * 2 ^ ulpExp (m / den) ≤ den * 2 ^ ulpExp (n / den) :=
    Nat.mul_le_mul_left _ (Nat.pow_le_pow_right (by decide) (ulpExp_mono (Nat.div_le_div_right hmn)))
  rw [h] at hm
  omega

/-- A unit in the last place is the least unit, or at most 2^-23 of the magnitude (41_numerics.md R65). -/
theorem ulp_le (num den : Nat) :
    den * 2 ^ ulpExp (num / den) = den ∨ 2 ^ 23 * (den * 2 ^ ulpExp (num / den)) ≤ num := by
  obtain ⟨-, hnormal⟩ := ulpExp_spec (num / den)
  rcases Nat.eq_zero_or_pos (ulpExp (num / den)) with hzero | hpos
  · exact .inl (by rw [hzero, pow_zero, Nat.mul_one])
  · refine .inr ?_
    calc 2 ^ 23 * (den * 2 ^ ulpExp (num / den))
      _ = den * 2 ^ (23 + ulpExp (num / den)) := by ring
      _ ≤ den * (num / den) := Nat.mul_le_mul_left _ (hnormal hpos.ne')
      _ ≤ num := Nat.mul_div_le num den

end Sys2Proof.Machine.F32

namespace Sys2Proof.Machine

/-! ## The centred code -/

/-- How far a code is from mid-scale, in steps of the code. -/
def codeDistance (r : Code14) : Nat := ((r.toNat : Int) - 8192).natAbs

theorem units_centredInteger (r : Code14) : F32.units (centredInteger r) = codeDistance r * 2 ^ 136 := by
  obtain ⟨hunits, -, -⟩ := centredInteger_spec r
  exact hunits

theorem sign_centredInteger (r : Code14) : F32.sign (centredInteger r) = decide (r.toNat < 8192) := by
  obtain ⟨-, -, hsign⟩ := centredInteger_spec r
  exact hsign

theorem codeDistance_le (r : Code14) : codeDistance r ≤ 8192 := by
  have hr := r.isLt
  unfold codeDistance
  omega

/-- The centred code is at most one in magnitude (40_frame_words.md R60). -/
theorem units_centredInteger_le (r : Code14) : F32.units (centredInteger r) ≤ F32.unit := by
  rw [units_centredInteger]
  exact Nat.mul_le_mul_right (2 ^ 136) (codeDistance_le r)

theorem isZero_centredInteger_of_ne {r : Code14} (h : r.toNat ≠ 8192) : F32.isZero (centredInteger r) = false := by
  have hpos : 0 < codeDistance r := by
    unfold codeDistance
    omega
  refine Bool.eq_false_iff.mpr fun hz => ?_
  rw [F32.isZero_iff_units, units_centredInteger] at hz
  exact (Nat.mul_pos hpos (by decide)).ne' hz

/-- Codes symmetric about mid-scale are centred to opposite values (40_frame_words.md R62). -/
theorem centredInteger_symmetric {q r : Code14} (hsum : q.toNat + r.toNat = 16384) (hne : q.toNat ≠ 8192) :
    centredInteger q = F32.neg (centredInteger r) := by
  have hsign : decide (q.toNat < 8192) = !decide (r.toNat < 8192) := by
    rw [← decide_not, decide_eq_decide]
    omega
  have hdist : ((q.toNat : Int) - 8192).natAbs = ((r.toNat : Int) - 8192).natAbs := by omega
  rw [F32.neg_eq_pack, sign_centredInteger, centredInteger, centredInteger, hsign, hdist,
    F32.magBits_pack _ _ (F32.roundMag_lt _ _)]

theorem order_centredInteger_mono {q r : Code14} (h : q.toNat ≤ r.toNat) :
    F32.order (centredInteger q) ≤ F32.order (centredInteger r) := by
  refine F32.order_le_of_signedUnits_le ?_
  rw [signedUnits_centredInteger, signedUnits_centredInteger]
  omega

/-! ## Results under a finite `K` -/

/-- A word's value is `K` times the centred code (41_numerics.md R66). -/
theorem calibrate_eq_fmul (d : BitVec 23) (r : Code14) (fs ff : F32) :
    calibrate d r fs ff = F32.fmul d (scaleProduct d fs ff) (centredInteger r) :=
  calibrate_eq d r fs ff


section FiniteK

variable {d : BitVec 23} {fs ff : F32} (hK : F32.isFinite (scaleProduct d fs ff) = true)

include hK

theorem isFinite_calibrate (r : Code14) : F32.isFinite (calibrate d r fs ff) = true := by
  rw [calibrate_eq_fmul]
  exact F32.isFinite_fmul_of_units_le hK (isFinite_centredInteger r) (units_centredInteger_le r)

theorem magBits_calibrate_le (r : Code14) :
    F32.magBits (calibrate d r fs ff) ≤ F32.magBits (scaleProduct d fs ff) := by
  rw [calibrate_eq_fmul]
  exact F32.magBits_fmul_le hK (isFinite_centredInteger r) (units_centredInteger_le r)

theorem sign_calibrate (r : Code14) :
    F32.sign (calibrate d r fs ff) = (F32.sign (scaleProduct d fs ff) ^^ decide (r.toNat < 8192)) := by
  rw [calibrate_eq_fmul, F32.sign_fmul_finite hK (isFinite_centredInteger r), sign_centredInteger]

/-- The magnitude of a result is the exact product's, rounded once and never cut off. -/
theorem magBits_calibrate (r : Code14) : F32.magBits (calibrate d r fs ff) =
    F32.rawMag (F32.units (scaleProduct d fs ff) * (codeDistance r * 2 ^ 136)) F32.unit := by
  have hprod : calibrate d r fs ff = _ := (calibrate_eq_fmul d r fs ff).trans (F32.fmul_finite hK (isFinite_centredInteger r))
  have hfin := isFinite_calibrate hK r
  rw [hprod] at hfin ⊢
  rw [F32.magBits_of_isFinite hfin, units_centredInteger]

theorem order_calibrate_mono {q r : Code14} (h : q.toNat ≤ r.toNat) (hpos : 0 < F32.order (scaleProduct d fs ff)) :
    F32.order (calibrate d q fs ff) ≤ F32.order (calibrate d r fs ff) := by
  rw [calibrate_eq_fmul, calibrate_eq_fmul]
  exact F32.order_fmul_mono hK hpos (F32.isNaN_of_isFinite (isFinite_centredInteger q))
    (F32.isNaN_of_isFinite (isFinite_centredInteger r)) (order_centredInteger_mono h)

/-- A negative `K` gives the opposites of the results of its opposite. -/
theorem calibrate_eq_neg_fmul (r : Code14) :
    calibrate d r fs ff = F32.neg (F32.fmul d (F32.neg (scaleProduct d fs ff)) (centredInteger r)) := by
  rw [F32.fmul_neg_left hK (isFinite_centredInteger r), F32.neg_neg]
  exact calibrate_eq_fmul d r fs ff

theorem order_calibrate_anti {q r : Code14} (h : q.toNat ≤ r.toNat) (hneg : F32.order (scaleProduct d fs ff) < 0) :
    F32.order (calibrate d r fs ff) ≤ F32.order (calibrate d q fs ff) := by
  have hpos : 0 < F32.order (F32.neg (scaleProduct d fs ff)) := by
    rw [F32.order_neg]
    omega
  rw [calibrate_eq_neg_fmul hK, calibrate_eq_neg_fmul hK, F32.order_neg, F32.order_neg, Int.neg_le_neg_iff]
  exact F32.order_fmul_mono ((F32.isFinite_neg _).trans hK) hpos (F32.isNaN_of_isFinite (isFinite_centredInteger q))
    (F32.isNaN_of_isFinite (isFinite_centredInteger r)) (order_centredInteger_mono h)

theorem calibrate_symmetric {q r : Code14} (hsum : q.toNat + r.toNat = 16384) (hne : q.toNat ≠ 8192) :
    calibrate d q fs ff = F32.neg (calibrate d r fs ff) := by
  rw [calibrate_eq_fmul, calibrate_eq_fmul, centredInteger_symmetric hsum hne, F32.fmul_comm d _ (F32.neg _),
    F32.fmul_neg_left (isFinite_centredInteger r) hK, F32.fmul_comm d (centredInteger r)]

/-- With `|K|` of at least 2^-102, a code farther from mid-scale gives another magnitude: the exact products differ by
2^-13 of `|K|`, and a unit in the last place is at most 2^-23 of it. -/
theorem codeDistance_eq_of_magBits_eq (hbig : 2 ^ 47 ≤ F32.units (scaleProduct d fs ff)) {q r : Code14}
    (h : F32.magBits (calibrate d q fs ff) = F32.magBits (calibrate d r fs ff)) (hle : codeDistance q ≤ codeDistance r) :
    codeDistance q = codeDistance r := by
  rw [magBits_calibrate hK, magBits_calibrate hK] at h
  have hr := codeDistance_le r
  generalize F32.units (scaleProduct d fs ff) = k at *
  generalize codeDistance q = a at *
  generalize codeDistance r = b at *
  by_contra hne
  have hnear := F32.sub_le_of_rawMag_eq F32.unit_pos (Nat.mul_le_mul_left k (Nat.mul_le_mul_right (2 ^ 136) hle)) h
  have hulp := F32.ulp_le (k * (b * 2 ^ 136)) F32.unit
  have hgap : k * (a * 2 ^ 136) + k * 2 ^ 136 ≤ k * (b * 2 ^ 136) := by
    rw [← Nat.mul_add]
    exact Nat.mul_le_mul_left k (by omega)
  have hmost : k * (b * 2 ^ 136) ≤ k * 2 ^ 149 := Nat.mul_le_mul_left k (by omega)
  generalize F32.unit * 2 ^ F32.ulpExp (k * (b * 2 ^ 136) / F32.unit) = ulp at *
  rw [F32.unit] at hulp
  omega

end FiniteK

/-! ## Results under an infinite `K` -/

/-- Under an infinite `K` a code off mid-scale gives an infinity (41_numerics.md R72). -/
theorem calibrate_of_isInf {d : BitVec 23} {fs ff : F32} (hK : F32.isInf (scaleProduct d fs ff) = true) {r : Code14}
    (hne : r.toNat ≠ 8192) : calibrate d r fs ff =
      F32.pack (F32.sign (scaleProduct d fs ff) ^^ decide (r.toNat < 8192)) F32.infBits := by
  rw [calibrate_eq_fmul, F32.fmul_of_isInf hK (isZero_centredInteger_of_ne hne)
    (F32.isNaN_of_isFinite (isFinite_centredInteger r)), sign_centredInteger]

theorem isNaN_calibrate_middle {d : BitVec 23} {fs ff : F32} (hK : F32.isInf (scaleProduct d fs ff) = true) :
    F32.isNaN (calibrate d 8192 fs ff) = true := by
  rw [calibrate_eq_fmul, F32.fmul_inf_zero (.inl ⟨hK, by decide⟩), F32.isNaN_quietNaN]

/-! ## The statements -/

/-- Settles O30: where the first product overflows, the signs of infinities, and a second factor of at most one. -/
theorem overflowGivesInfinity : Obligations.OverflowGivesInfinity := by
  refine ⟨fun d fs ff => ⟨fun hfs hff => ⟨F32.isInf_fmul_iff hff hfs, F32.sign_fmul_finite hff hfs⟩, fun h => ?_⟩,
    fun d r fs ff => ⟨fun hK => ⟨fun hlt => ?_, fun hgt => ?_, fun hmid => ?_⟩, fun hK => isFinite_calibrate hK r⟩,
    fun s n fs ff w h hok => ?_⟩
  · rw [← F32.pack_infBits]
    rcases h with ⟨hinf, hzero, hnan⟩ | ⟨hinf, hzero, hnan⟩
    · rw [scaleProduct, F32.fmul_comm, F32.fmul_of_isInf hinf hzero hnan, Bool.xor_comm]
    · exact F32.fmul_of_isInf hinf hzero hnan
  · rw [calibrate_of_isInf hK hlt.ne, decide_eq_true hlt, Bool.xor_true, F32.neg_eq_pack, of_decide_eq_true hK]
  · rw [calibrate_of_isInf hK hgt.ne', decide_eq_false hgt.not_gt, Bool.xor_false, ← F32.eq_pack_of_isInf hK]
  · obtain rfl : r = 8192 := BitVec.eq_of_toNat_eq hmid
    exact isNaN_calibrate_middle hK
  · have hpush := perform_push_of_accepts h w
    rw [if_pos hok] at hpush
    obtain ⟨hrun, -⟩ := h
    refine ⟨_, hpush, ?_, ?_⟩
    · rw [advance_phase, writeSample_phase, hrun]
    · rw [advance_out, writeSample_out, readOut_writeOut_same]

/-- Settles O34: `K` is multiplied by a factor that is ordered as the codes, at most one, and odd about mid-scale. -/
theorem calibrationRangeAndOrder : Obligations.CalibrationRangeAndOrder := by
  intro d fs ff hK
  have hpositive : 0 < F32.order (scaleProduct d fs ff) → F32.sign (scaleProduct d fs ff) = false := fun hpos => by
    by_contra hs
    rw [F32.order, if_pos (by simpa using hs)] at hpos
    omega
  refine ⟨fun q r hqr => ⟨order_calibrate_mono hK hqr, order_calibrate_anti hK hqr⟩,
    fun r => ⟨magBits_calibrate_le hK r, fun hpos hlt => ?_, fun hpos hge => ?_⟩, fun q r hsum hne => ?_⟩
  · rw [F32.order, sign_calibrate hK, hpositive hpos, decide_eq_true hlt]
    simp
  · rw [F32.order, sign_calibrate hK, hpositive hpos, decide_eq_false hge.not_gt]
    simp
  · exact calibrate_symmetric hK hsum fun h => hne (BitVec.eq_of_toNat_eq h)

/-- Settles O35: equal results have codes on the same side of mid-scale, and equally far from it. -/
theorem calibrationIsInjective : Obligations.CalibrationIsInjective := by
  intro d fs ff hK hbig q r h
  have hside : decide (q.toNat < 8192) = decide (r.toNat < 8192) := by
    have hsign := congrArg F32.sign h
    rw [sign_calibrate hK, sign_calibrate hK] at hsign
    exact Bool.xor_right_inj.mp hsign
  have hmag := congrArg F32.magBits h
  have hdist : codeDistance q = codeDistance r := by
    rcases Nat.le_total (codeDistance q) (codeDistance r) with hle | hle
    · exact codeDistance_eq_of_magBits_eq hK hbig hmag hle
    · exact (codeDistance_eq_of_magBits_eq hK hbig hmag.symm hle).symm
  rw [decide_eq_decide] at hside
  unfold codeDistance at hdist
  exact BitVec.eq_of_toNat_eq (by omega)

end Sys2Proof.Machine
